-- ==== Sys2Proof/Word.lean ====
section
/-! DEFINITION. The widths of the block's values (00_scope.md R6, R7) and the two kinds of buffer. Everything is
unsigned; bit 0 is the least significant bit. -/

namespace Sys2Proof

/-- A register, an address, an instruction byte, a mask: 8 bits (`DATA_WIDTH`, `ADDR_WIDTH`, R6). -/
abbrev Byte := BitVec 8

/-- An identifier operand: 32 bits (`ID_WIDTH`, R6), of which 11 or 29 are significant (R36). -/
abbrev Ident := BitVec 32

/-- A command word `cmd[47:0]` (30_encoding.md R79). -/
abbrev CmdWord := BitVec 48

/-- A response word `rsp[39:0]` (30_encoding.md R83). -/
abbrev RspWord := BitVec 40

/-- The kind of a buffer, the first operand of RES: two values and no more (43_buffer_index.md R148). -/
inductive Kind where
  | tx
  | rx
  deriving DecidableEq, Repr, Inhabited

/-- The kind's bit in a command word: TX = 0, RX = 1 (30_encoding.md R81). -/
def Kind.bit : Kind → BitVec 1
  | .tx => 0#1
  | .rx => 1#1

/-- The kind a bit stands for (30_encoding.md R81). -/
def Kind.ofBit (b : BitVec 1) : Kind := if b = 1#1 then .rx else .tx

end Sys2Proof
end

