-- ==== Sys2Proof/Syntax.lean ====
section
/-! DEFINITION. The block's commands in their abstract, normative form (30_encoding.md R90): an operation and the typed
operands of the source's signature. One constructor per row of spec/opcode_table.json. -/

namespace Sys2Proof

/-- A command of the block (30_encoding.md R80, R82). -/
inductive Instr where
  /-- RDR addr: read a register (41_register_access.md R101). -/
  | rdr (addr : Byte)
  /-- WRV addr, value: write a register and verify (R102). -/
  | wrv (addr value : Byte)
  /-- MBV addr, mask, value: modify bits and verify (R103). -/
  | mbv (addr mask value : Byte)
  /-- ENC id, std or ext: encode an identifier (42_arbitration_id_codec.md R121). -/
  | enc (id : Ident) (ext : Bool)
  /-- DEC sidh, sidl, eid8, eid0: decode an identifier (R122). -/
  | dec (sidh sidl eid8 eid0 : Byte)
  /-- RES kind, index: resolve a buffer (43_buffer_index.md R142). -/
  | res (kind : Kind) (index : Byte)
  deriving DecidableEq, Repr

end Sys2Proof
end

