-- ==== Sys2Proof/Config.lean ====
section
/-! DEFINITION. The parameters of 00_scope.md R6, the small data types of the spec, and the free values (93_implementation_defined.md
U2, U3, U5, U6). A parameter is data that the state carries and nothing writes (log entry 2); a free value is a
constant with no body (log entries 5, 7, 8, 9). -/

namespace Sys2Proof

/-- The peripheral's operating mode (00_scope.md R9, 30_encoding.md R75): five names. -/
inductive Mode where
  | normal
  | sleep
  | loopback
  | listenOnly
  | config
  deriving DecidableEq, Repr, Inhabited

/-- How the client sequence RESET signals reset (`RESET_VARIANT`, 00_scope.md R6). -/
inductive ResetVariant where
  | instruction
  | pin
  deriving DecidableEq, Repr, Inhabited

/-- `RX_CTRL_OFFSET`: CTRL just below SIDH (-1) or just above D7 (+13), the only two values (43_buffer_index.md R141). -/
inductive CtrlPlace where
  | below
  | above
  deriving DecidableEq, Repr, Inhabited

/-- A result code (60_exceptions.md R191). -/
inductive ResultCode where
  | ok
  | fail
  | invalid
  | refused
  deriving DecidableEq, Repr, Inhabited

/-- The number of a result code: `Ok` 0, `Fail` 1, `Invalid` 2, `Refused` 3 (30_encoding.md R84). -/
def ResultCode.bits : ResultCode → BitVec 2
  | .ok => 0#2
  | .fail => 1#2
  | .invalid => 2#2
  | .refused => 3#2

/-- `ras_op`, the RAS operation in progress (10_state.md R12); the number 3 never occurs. -/
inductive RasOp where
  | rdr
  | wrv
  | mbv
  deriving DecidableEq, Repr, Inhabited

/-- The number of a RAS operation: RDR 0, WRV 1, MBV 2 (10_state.md R12). -/
def RasOp.bits : RasOp → BitVec 2
  | .rdr => 0#2
  | .wrv => 1#2
  | .mbv => 2#2

/-- `ras_phase`, where the sequencer is in the current operation (10_state.md R13); the number 3 never occurs. -/
inductive Phase where
  | idle
  | primary
  | readback
  deriving DecidableEq, Repr, Inhabited

/-- The number of a phase: IDLE 0, PRIMARY 1, READBACK 2 (10_state.md R13). -/
def Phase.bits : Phase → BitVec 2
  | .idle => 0#2
  | .primary => 1#2
  | .readback => 2#2

/-- The frame the client sequences pass (10_state.md R36). `dataLength` is unsigned with no width of its own; its
invariant, at most 8, is the caller's duty. -/
structure CanFrame where
  id : Ident
  isExtended : Bool
  isRemoteFrame : Bool
  dataLength : Nat
  data : Vector Byte 8
  deriving DecidableEq, Repr, Inhabited

/-- The parameters of 00_scope.md R6: constants of one build of the block (10_state.md R10, R18). -/
structure Params where
  instrRead : Byte
  instrWrite : Byte
  instrBitmod : Byte
  instrReset : Byte
  /-- `INSTR_RTS_TX0` to `INSTR_RTS_TX2`. -/
  instrRts : Vector Byte 3
  addrControl : Byte
  addrStatus : Byte
  addrIntflag : Byte
  addrIntenable : Byte
  /-- `TX_SIDH_ADDR[0..2]`, the table of the BAM for TX (43_buffer_index.md R146). -/
  txSidh : Vector Byte 3
  /-- `RX_SIDH_ADDR[0..1]`, the table of the BAM for RX. -/
  rxSidh : Vector Byte 2
  rxCtrlPlace : CtrlPlace
  /-- `RX_PENDING_MASK[0..1]`. -/
  rxPendingMask : Vector Byte 2
  rxRemoteMask : Byte
  /-- `MODE_CODE[Normal]` and so on, 3 bits each. -/
  modeNormal : BitVec 3
  modeSleep : BitVec 3
  modeLoopback : BitVec 3
  modeListenOnly : BitVec 3
  modeConfig : BitVec 3
  resetVariant : ResetVariant
  deriving DecidableEq, Repr, Inhabited

/-- `MODE_CODE[mode]` (00_scope.md R6). -/
def Params.modeCode (p : Params) : Mode → BitVec 3
  | .normal => p.modeNormal
  | .sleep => p.modeSleep
  | .loopback => p.modeLoopback
  | .listenOnly => p.modeListenOnly
  | .config => p.modeConfig

/-- The defaults of 00_scope.md R6. PRESUMED, unsafe: most of them are "from general knowledge, not in source" (log entry 2). -/
def Params.default : Params where
  instrRead := 0x03#8
  instrWrite := 0x02#8
  instrBitmod := 0x05#8
  instrReset := 0xC0#8
  instrRts := #v[0x81#8, 0x82#8, 0x84#8]
  addrControl := 0x0F#8
  addrStatus := 0x0E#8
  addrIntflag := 0x2C#8
  addrIntenable := 0x2B#8
  txSidh := #v[0x31#8, 0x41#8, 0x51#8]
  rxSidh := #v[0x61#8, 0x71#8]
  rxCtrlPlace := .below
  rxPendingMask := #v[0x01#8, 0x02#8]
  rxRemoteMask := 0x08#8
  modeNormal := 0#3
  modeSleep := 1#3
  modeLoopback := 2#3
  modeListenOnly := 3#3
  modeConfig := 4#3
  resetVariant := .instruction

/-- `ADDR_LAST`: the last address of the peripheral's map (00_scope.md R6, 20_memory.md R41). -/
def addrLast : Nat := 0x7D

/-- `TX_BLOCK_LEN` (00_scope.md R6). -/
def txBlockLen : Nat := 13

/-- `RX_BLOCK_LEN` (00_scope.md R6). -/
def rxBlockLen : Nat := 14

/-- FREE VALUE (U3, 20_memory.md R52; log entry 5): the byte the bus returns to the read that takes draw `n`, where the
state's script lists none. -/
opaque Config.busByte : Nat → Byte

/-- FREE VALUE (U5, 44_client_sequences.md R162; log entry 7): whether SWMODE answers `Ok` in its third case. -/
opaque Config.swmodeThirdCase : Nat → Bool

/-- FREE VALUE (U6, 44_client_sequences.md R169; log entry 8): the frame READFRAME returns with `Invalid`. -/
opaque Config.unspecifiedFrame : Nat → CanFrame

/-- FREE VALUE (U2, 10_state.md R19; log entry 9): `ras_op` after a block reset. -/
opaque Config.resetOp : Nat → RasOp

/-- FREE VALUE (U2; log entry 9): `ras_addr`, `ras_mask`, `ras_value` and `ras_rb` after a block reset. -/
opaque Config.resetBytes : Nat → Vector Byte 4

/-- FREE VALUE (U2; log entry 9): `ras_result` after a block reset. -/
opaque Config.resetResult : Nat → ResultCode

end Sys2Proof
end

