-- ==== Sys2Proof/WellFormed.lean ====
section
/-! DEFINITION. The checks on data: the constraints 00_scope.md R6 puts on the parameters, the duties 10_state.md R36 leaves to
the caller of the codec and of LOADFRAME, and the well-formedness of a command. -/

namespace Sys2Proof

/-- The first and the last address of the block whose SIDH is at `S`, TX (43_buffer_index.md R141). -/
def txSpan (S : Byte) : Int × Int := ((S.toNat : Int), (S.toNat : Int) + 12)

/-- The first and the last address of the block whose SIDH is at `S`, RX, CTRL included (43_buffer_index.md R141). -/
def rxSpan (p : Params) (S : Byte) : Int × Int :=
  match p.rxCtrlPlace with
  | .below => ((S.toNat : Int) - 1, (S.toNat : Int) + 12)
  | .above => ((S.toNat : Int), (S.toNat : Int) + 13)

/-- The spans of the five blocks (43_buffer_index.md R144). -/
def Params.spans (p : Params) : List (Int × Int) :=
  [txSpan p.txSidh[0], txSpan p.txSidh[1], txSpan p.txSidh[2], rxSpan p p.rxSidh[0], rxSpan p p.rxSidh[1]]

/-- A span lies wholly inside 0x00 to `ADDR_LAST` (00_scope.md R6). -/
def spanInMap (x : Int × Int) : Bool := decide (0 ≤ x.1) && decide (x.2 ≤ (addrLast : Int))

/-- Two spans share no address (00_scope.md R6). -/
def spansDisjoint (x y : Int × Int) : Bool := decide (x.2 < y.1) || decide (y.2 < x.1)

/-- Exactly one bit of the mask is set. -/
def oneBit (m : Byte) : Bool := [0x01#8, 0x02#8, 0x04#8, 0x08#8, 0x10#8, 0x20#8, 0x40#8, 0x80#8].contains m

/-- `INSTR_READ`, `INSTR_WRITE`, `INSTR_BITMOD` are pairwise different (00_scope.md R6). -/
def Params.instrsDiffer (p : Params) : Bool :=
  p.instrRead != p.instrWrite && p.instrRead != p.instrBitmod && p.instrWrite != p.instrBitmod

/-- The system registers lie in 0x00 to `ADDR_LAST` (00_scope.md R6). -/
def Params.addrsInMap (p : Params) : Bool :=
  [p.addrControl, p.addrStatus, p.addrIntflag].all fun a => decide (a.toNat ≤ addrLast)

/-- Every block lies inside the map and no two overlap (00_scope.md R6). -/
def Params.blocksOk (p : Params) : Bool :=
  p.spans.all spanInMap && decide (p.spans.Pairwise fun x y => spansDisjoint x y = true)

/-- One bit per RX buffer, the two different; one bit for the remote flag (00_scope.md R6). -/
def Params.masksOk (p : Params) : Bool :=
  oneBit p.rxPendingMask[0] && oneBit p.rxPendingMask[1] && p.rxPendingMask[0] != p.rxPendingMask[1] &&
    oneBit p.rxRemoteMask

/-- What the byte of a TX buffer's request-to-send instruction has beyond the bits all three share: its own flag. -/
def Params.rtsFlag (p : Params) (n : Fin 3) : Byte :=
  p.instrRts[n] &&& ~~~(p.instrRts[0] &&& p.instrRts[1] &&& p.instrRts[2])

/-- The three request-to-send bytes are "independent single-bit flags" (00_scope.md R6, 30_encoding.md R78): beyond the bits all
three share, each has one bit, and no two the same. DEDUCED, safe: that shared bits are allowed is read from R6's default, "0x80 plus
one bit per buffer" (log entry 21). -/
def Params.rtsFlagsOk (p : Params) : Bool :=
  oneBit (p.rtsFlag 0) && oneBit (p.rtsFlag 1) && oneBit (p.rtsFlag 2) && p.rtsFlag 0 != p.rtsFlag 1 &&
    p.rtsFlag 0 != p.rtsFlag 2 && p.rtsFlag 1 != p.rtsFlag 2

/-- The five mode codes are pairwise different (00_scope.md R6). -/
def Params.modesDiffer (p : Params) : Bool :=
  decide [p.modeNormal, p.modeSleep, p.modeLoopback, p.modeListenOnly, p.modeConfig].Nodup

/-- The constraints of 00_scope.md R6 on the parameters, the fixed parts of its column "source fixes" among them. -/
def Params.wf (p : Params) : Bool :=
  p.instrsDiffer && p.addrsInMap && p.blocksOk && p.masksOk && p.modesDiffer && p.rtsFlagsOk

/-- "`id` must fit 11 bits when `isExtended` is false, 29 bits when true" (10_state.md R36): the caller's duty. -/
def idInRange (id : Ident) (ext : Bool) : Bool :=
  if ext then decide (id.toNat < 2 ^ 29) else decide (id.toNat < 2 ^ 11)

/-- The invariant of a frame the caller hands in (10_state.md R36): the caller's duty, checked by nothing. -/
def CanFrame.wf (f : CanFrame) : Bool := idInRange f.id f.isExtended && decide (f.dataLength ≤ 8)

/-- A command is well formed when its operands fit their fields (30_encoding.md R81, R82): the operand types are the
fields' widths, so every term is. An identifier out of range is no encoding error (42_arbitration_id_codec.md R125). -/
def Instr.wf : Instr → Bool
  | .rdr _ => true
  | .wrv _ _ => true
  | .mbv _ _ _ => true
  | .enc _ _ => true
  | .dec _ _ _ _ => true
  | .res _ _ => true

/-- The caller kept the identifier in range (42_arbitration_id_codec.md R125): the premise of the round trip of R123. -/
def Instr.idOk : Instr → Bool
  | .rdr _ => true
  | .wrv _ _ => true
  | .mbv _ _ _ => true
  | .enc id ext => idInRange id ext
  | .dec _ _ _ _ => true
  | .res _ _ => true

end Sys2Proof
end

