-- ==== Sys2Proof/Decode.lean ====
section
/-! DEFINITION. The 48-bit command word (30_encoding.md R79 to R82): a decoder, total, which rejects by name (R85), and after it
the encoder. Masks and match values are those of spec/opcode_table.json. -/

namespace Sys2Proof

/-- Why a command word is undefined (30_encoding.md R85). -/
inductive Reject where
  /-- The opcode is not one of the six of R80. -/
  | undefinedOpcode
  /-- A bit that R81 calls "zero" is 1. -/
  | nonzeroReserved
  deriving DecidableEq, Repr

/-- What a command word stands for. -/
inductive Decoded where
  | instr (i : Instr)
  | reject (why : Reject)
  deriving DecidableEq, Repr

/-- One row of the opcode table: the fixed bits and their value. -/
structure Row where
  mask : CmdWord
  value : CmdWord
  deriving DecidableEq, Repr

def rdrRow : Row := ⟨0xFFFFFF00FFFF#48, 0x110000000000#48⟩
def wrvRow : Row := ⟨0xFFFFFF00FF00#48, 0x120000000000#48⟩
def mbvRow : Row := ⟨0xFFFFFF000000#48, 0x130000000000#48⟩
def encRow : Row := ⟨0xFFFE00000000#48, 0x210000000000#48⟩
def decRow : Row := ⟨0xFFFF00000000#48, 0x220000000000#48⟩
def resRow : Row := ⟨0xFFFFFFFFFE00#48, 0x310000000000#48⟩

/-- The opcode table (spec/opcode_table.json), in its order. -/
def opcodeRows : List Row := [rdrRow, wrvRow, mbvRow, encRow, decRow, resRow]

/-- The row of the table a command belongs to. -/
def Instr.row : Instr → Row
  | .rdr _ => rdrRow
  | .wrv _ _ => wrvRow
  | .mbv _ _ _ => mbvRow
  | .enc _ _ => encRow
  | .dec _ _ _ _ => decRow
  | .res _ _ => resRow

/-- The word has the row's fixed bits. -/
def Row.fits (r : Row) (w : CmdWord) : Bool := w &&& r.mask == r.value

/-- `cmd[47:40]` (30_encoding.md R79). -/
def opcodeOf (w : CmdWord) : Byte := w.extractLsb' 40 8

/-- The eight bits of the word from bit `lo` up: a byte-wide field of 30_encoding.md R81. -/
def byteAt (lo : Nat) (w : CmdWord) : Byte := w.extractLsb' lo 8

/-- The six opcodes of 30_encoding.md R80. -/
def definedOpcodes : List Byte := [0x11#8, 0x12#8, 0x13#8, 0x21#8, 0x22#8, 0x31#8]

/-- The bits that 30_encoding.md R81 calls "zero" in a command of this opcode. -/
def zeroBits (opcode : Byte) : CmdWord :=
  if opcode = 0x11#8 then 0x00FFFF00FFFF#48
  else if opcode = 0x12#8 then 0x00FFFF00FF00#48
  else if opcode = 0x13#8 then 0x00FFFF000000#48
  else if opcode = 0x21#8 then 0x00FE00000000#48
  else if opcode = 0x22#8 then 0x00FF00000000#48
  else if opcode = 0x31#8 then 0x00FFFFFFFE00#48
  else 0#48

/-- Reads a command word (30_encoding.md R79 to R82, R85). -/
def decode (w : CmdWord) : Decoded :=
  if rdrRow.fits w then .instr (.rdr (byteAt 16 w))
  else if wrvRow.fits w then .instr (.wrv (byteAt 16 w) (byteAt 0 w))
  else if mbvRow.fits w then .instr (.mbv (byteAt 16 w) (byteAt 8 w) (byteAt 0 w))
  else if encRow.fits w then .instr (.enc (w.extractLsb' 0 32) (w.getLsbD 32))
  else if decRow.fits w then .instr (.dec (byteAt 24 w) (byteAt 16 w) (byteAt 8 w) (byteAt 0 w))
  else if resRow.fits w then .instr (.res (Kind.ofBit (w.extractLsb' 8 1)) (byteAt 0 w))
  else if definedOpcodes.contains (opcodeOf w) then .reject .nonzeroReserved
  else .reject .undefinedOpcode

/-- The word of a command, field by field as 30_encoding.md R80, R81 lay them out. -/
def encode : Instr → CmdWord
  | .rdr addr => 0x11#8 ++ 0#16 ++ addr ++ 0#8 ++ 0#8
  | .wrv addr value => 0x12#8 ++ 0#16 ++ addr ++ 0#8 ++ value
  | .mbv addr mask value => 0x13#8 ++ 0#16 ++ addr ++ mask ++ value
  | .enc id ext => 0x21#8 ++ 0#7 ++ BitVec.ofBool ext ++ id
  | .dec sidh sidl eid8 eid0 => 0x22#8 ++ 0#8 ++ sidh ++ sidl ++ eid8 ++ eid0
  | .res kind index => 0x31#8 ++ 0#31 ++ kind.bit ++ index

/-- The command this decoder reads from the opcode table's bits: the table numbers a row's 48 bits as the spec numbers
the command word, which the host presents whole. Bits from `nbits` up are 0; a word of more than 48 bits is no command. -/
def decodeTableWord (nbits w : Nat) : Option Instr :=
  let v := w % 2 ^ nbits
  if v < 2 ^ 48 then
    match decode (BitVec.ofNat 48 v) with
    | .instr i => some i
    | .reject _ => none
  else none

end Sys2Proof
end

