-- ==== Sys2Proof/Machine/State.lean ====
section
/-! DEFINITION. The state of the machine as plain data, and the state after reset (10_state.md). What the block remembers is
`ras`; the rest is history (R25), configuration (R6, R10), and the environment's inputs (20_memory.md R52, R53; 10_state.md R16). -/

namespace Sys2Proof.Machine

/-- The four register bytes of an identifier (30_encoding.md R71, R72). -/
structure IdImage where
  sidh : Byte
  sidl : Byte
  eid8 : Byte
  eid0 : Byte
  deriving DecidableEq, Repr

/-- What RES answers (43_buffer_index.md R142): the SIDH address, and the CTRL address when the block has a CTRL. -/
structure RegisterBlock where
  sidhAddr : Byte
  ctrlAddr : Option Byte
  deriving DecidableEq, Repr

/-- The thirteen registers every block has (43_buffer_index.md R141): `data k` is Dk. -/
inductive CommonField where
  | sidh
  | sidl
  | eid8
  | eid0
  | dlc
  | data (k : Fin 8)
  deriving DecidableEq, Repr

/-- A register of a block by name (43_buffer_index.md R145). -/
inductive Field where
  | common (f : CommonField)
  | ctrl
  deriving DecidableEq, Repr

/-- An address operand of the assembler (30_encoding.md R87): a number, a parameter's name, or a block field. -/
inductive AddrOperand where
  | abs (addr : Byte)
  | addrControl
  | addrStatus
  | addrIntflag
  | addrIntenable
  | field (kind : Kind) (n : Byte) (f : Field)
  deriving DecidableEq, Repr

/-- A line of the assembler (30_encoding.md R87). -/
inductive AsmLine where
  | rdr (addr : AddrOperand)
  | wrv (addr : AddrOperand) (value : Byte)
  | mbv (addr : AddrOperand) (mask value : Byte)
  | enc (id : Ident) (ext : Bool)
  | dec (sidh sidl eid8 eid0 : Byte)
  | res (kind : Kind) (index : Byte)
  deriving DecidableEq, Repr

/-- One entry of the bus trace (10_state.md R25): `Transact(instr, addr, payload) -> response` (20_memory.md R44). -/
structure Transaction where
  instr : Byte
  addr : Option Byte
  payload : List Byte
  response : List Byte
  deriving DecidableEq, Repr

/-- The data of a response, by operation (30_encoding.md R83). -/
inductive RspData where
  | empty
  | byte (b : Byte)
  | image (img : IdImage)
  | ident (id : Ident) (ext : Bool)
  | block (blk : RegisterBlock)
  deriving DecidableEq, Repr

/-- A response: a result code and its data (30_encoding.md R90, 41_register_access.md R110). -/
structure Response where
  code : ResultCode
  data : RspData
  deriving DecidableEq, Repr

/-- What a client sequence returns (44_client_sequences.md): a code, and for READFRAME a frame. -/
structure ClientResult where
  code : ResultCode
  frame : Option CanFrame
  deriving DecidableEq, Repr

/-- What the host does next (10_state.md R16; 70_reset_and_hazards.md R210, R217; 44_client_sequences.md). -/
inductive HostInput where
  /-- Present a command word; the block runs it as one step (41_register_access.md R105). -/
  | command (w : CmdWord)
  /-- Present a command word; the block accepts it and then issues one transaction a step (R104). -/
  | present (w : CmdWord)
  /-- Present a line of assembler (30_encoding.md R87), run as one step. -/
  | line (l : AsmLine)
  /-- Leave the block alone for one step. -/
  | wait
  /-- Block reset (70_reset_and_hazards.md R210), also in the middle of an operation. -/
  | blockReset
  /-- The client sequences (44_client_sequences.md), each run as one step: nothing may come in between (R160). -/
  | swmode (mode : Mode)
  | reset
  | loadFrame (index : Byte) (frame : CanFrame)
  | readFrame (index : Byte)
  | reqTx (tx0 tx1 tx2 : Bool)
  deriving DecidableEq, Repr

/-- The RAS latches (10_state.md R12), all the state the block has. -/
structure Ras where
  phase : Phase
  op : RasOp
  addr : Byte
  mask : Byte
  value : Byte
  rb : Byte
  result : ResultCode
  deriving DecidableEq, Repr

/-- Which model of the peripheral answers: the normative oracle (20_memory.md R52) or the ideal one for tests (R53). -/
inductive PeriphModel where
  | oracle
  | ideal
  deriving DecidableEq, Repr

/-- The machine. Plain data; no field holds a function. -/
structure State where
  /-- The parameters of 00_scope.md R6: constants, which no step writes (10_state.md R10, R18). -/
  params : Params
  /-- The RAS latches (10_state.md R12). -/
  ras : Ras
  /-- The bus trace, oldest first (10_state.md R25). -/
  trace : List Transaction
  /-- The responses the block has given, oldest first (30_encoding.md R83). -/
  responses : List Response
  /-- The results of the client sequences, oldest first (44_client_sequences.md). -/
  results : List ClientResult
  /-- How many reset pulses the pin variant of RESET has asked for (44_client_sequences.md R163, 90_conflicts.md C6). -/
  pulses : Nat
  /-- What the host will do, next first (log entry 4). -/
  host : List HostInput
  /-- Which peripheral answers (20_memory.md R52, R53; log entry 5). -/
  periph : PeriphModel
  /-- The bytes the oracle returns next; after them, free values (20_memory.md R52; log entry 5). -/
  script : List Byte
  /-- How many free values have been taken: the model's own field (log entry 5). -/
  draws : Nat
  /-- `P`, the registers of the ideal peripheral (20_memory.md R53), in canonical form (log entry 6). -/
  mem : List Host.Cell
  deriving DecidableEq, Repr

/-- Why the machine stops with a fault. "The block has no fault of its own" (60_exceptions.md R205). -/
inductive Fault where
  /-- Raised by `step` in the state READBACK with `ras_op` = RDR, for which 41_register_access.md R104 has no row. No run
  reaches it (the invariant `Ras.wf`). Safe: the machine stops where the spec gives no step. -/
  | rasNoRow
  deriving DecidableEq, Repr

/-- Why the machine gives an input no meaning. -/
inductive Refusal where
  /-- Raised by `exec` for an instruction that has no meaning yet (none now). Safe. -/
  | notModelled (mnemonic : String)
  /-- Raised by `exec` for a command given to a block that is not idle: it has no step (60_exceptions.md R205, R217).
  `step` never raises it: it presents nothing to a busy block. Safe. -/
  | busy
  /-- Raised for `REQTX {}` (44_client_sequences.md R171, "A model refuses"). Safe. -/
  | reqTxNoFlag
  /-- Raised for an address name that names no register: CTRL of a TX block (43_buffer_index.md R145) or a field of a buffer that
  does not exist. Safe. -/
  | undefinedAddress
  deriving DecidableEq, Repr

/-- The latches after reset: IDLE (10_state.md R19). DESIGN CHOICE, unsafe: R19 leaves every other latch unspecified and the
model starts each at 0 (log entry 1). -/
def Ras.reset : Ras where
  phase := .idle
  op := .rdr
  addr := 0x00#8
  mask := 0x00#8
  value := 0x00#8
  rb := 0x00#8
  result := .ok

/-- The machine right after reset (10_state.md R19): idle, bus trace empty, nothing presented, the oracle answers. -/
def State.reset : State where
  params := Params.default
  ras := Ras.reset
  trace := []
  responses := []
  results := []
  pulses := 0
  host := []
  periph := .oracle
  script := []
  draws := 0
  mem := []

end Sys2Proof.Machine
end

