-- ==== Sys2Proof/Machine/Ops.lean ====
section
/-! DEFINITION. The named operations over registers, the bus and the ideal peripheral's memory: the primitives of 00_scope.md
R8. There is no operation that takes an exception and none that returns from one: the block has neither (60_exceptions.md R195,
R196). -/

namespace Sys2Proof.Machine

/-- `P` of 20_memory.md R53: the bytes that differ from 0x00, by rising address. -/
abbrev Memory := List Host.Cell

/-- What an address that is not listed reads as. DESIGN CHOICE, unsafe: R53 gives `P` no first content; the programs of
95_test_vectors.md start with `P` all zero (log entry 6). -/
def Memory.unlisted : Byte := 0x00#8

/-- The canonical form: addresses strictly rising and below 256, no byte equal to what an unlisted address reads as. -/
def Memory.wf (m : Memory) : Bool :=
  decide (m.Pairwise fun x y => x.1 < y.1) && m.all fun c => decide (c.1 < 256) && c.2 != Memory.unlisted

/-- `P[a]`. -/
def Memory.read : Memory → Nat → Byte
  | [], _ => Memory.unlisted
  | c :: m, a => if c.1 = a then c.2 else Memory.read m a

/-- `P[a] <- v`, keeping the canonical form. -/
def Memory.write : Memory → Nat → Byte → Memory
  | [], a, v => if v = Memory.unlisted then [] else [(a, v)]
  | c :: m, a, v =>
    if c.1 < a then c :: Memory.write m a v
    else if c.1 = a then (if v = Memory.unlisted then m else (a, v) :: m)
    else if v = Memory.unlisted then c :: m else (a, v) :: c :: m

/-- `busy` (10_state.md R14). -/
def State.busy (s : State) : Bool := s.ras.phase != .idle

/-- `cmd_ready` (10_state.md R14). -/
def State.cmdReady (s : State) : Bool := !s.busy

/-- Writes the RAS latches. -/
def State.setRas (s : State) (r : Ras) : State := { s with ras := r }

/-- Appends one entry to the bus trace (10_state.md R25). -/
def State.log (s : State) (t : Transaction) : State := { s with trace := s.trace ++ [t] }

/-- Gives a response to the host (60_exceptions.md R190). -/
def State.respond (s : State) (r : Response) : State := { s with responses := s.responses ++ [r] }

/-- Returns the result of a client sequence to its caller. -/
def State.finish (s : State) (r : ClientResult) : State := { s with results := s.results ++ [r] }

/-- Takes one free value: the counter the opaque constants of Config are applied to moves on (log entry 5). -/
def State.drew (s : State) : State := { s with draws := s.draws + 1 }

/-- The host has made its next move. -/
def State.withHost (s : State) (h : List HostInput) : State := { s with host := h }

/-- `P <- m` (20_memory.md R53). -/
def State.setMem (s : State) (m : Memory) : State := { s with mem := m }

/-- The byte the bus returns to a read of `a`: a draw of the oracle (20_memory.md R52), the script's next byte where the state
lists one and else a free value; under the ideal peripheral `P[a]` (R53). -/
def State.busAnswer (s : State) (a : Byte) : Byte :=
  match s.periph with
  | .oracle =>
    match s.script with
    | b :: _ => b
    | [] => Config.busByte s.draws
  | .ideal => Memory.read s.mem a.toNat

/-- What a read leaves of the environment: the oracle's draw is used up; the ideal peripheral does not change (R53). -/
def State.afterRead (s : State) : State :=
  match s.periph with
  | .oracle => { s with script := s.script.tail, draws := s.draws + 1 }
  | .ideal => s

/-- What a transaction that writes leaves of the environment: nothing under the oracle (20_memory.md R52), `P[a] <- v` under
the ideal peripheral (R53). -/
def State.periphWrite (s : State) (a v : Byte) : State :=
  match s.periph with
  | .oracle => s
  | .ideal => s.setMem (Memory.write s.mem a.toNat v)

/-- T-READ of `a` that returned `b` (30_encoding.md R77). -/
def tRead (p : Params) (a b : Byte) : Transaction := ⟨p.instrRead, some a, [], [b]⟩

/-- T-WRITE (30_encoding.md R77). -/
def tWrite (p : Params) (a v : Byte) : Transaction := ⟨p.instrWrite, some a, [v], []⟩

/-- T-BITMOD: the mask, then the value as given (20_memory.md R47). -/
def tBitmod (p : Params) (a m v : Byte) : Transaction := ⟨p.instrBitmod, some a, [m, v], []⟩

/-- T-RESET (20_memory.md R48). -/
def tReset (p : Params) : Transaction := ⟨p.instrReset, none, [], []⟩

/-- T-RTS (20_memory.md R48). -/
def tRts (rtsByte : Byte) : Transaction := ⟨rtsByte, none, [], []⟩

/-- The bytes handed to the BusTransactor, in order (30_encoding.md R77). -/
def Transaction.bytes (t : Transaction) : List Byte := t.instr :: (t.addr.toList ++ t.payload)

/-- `MemRead(a, 1)` (20_memory.md R45): the byte the bus returned. -/
def memReadByte (a : Byte) (s : State) : Byte := s.busAnswer a

/-- `MemRead(a, 1)` (20_memory.md R45): the state after it, one T-READ logged with the byte it returned. -/
def memRead (a : Byte) (s : State) : State := s.afterRead.log (tRead s.params a (memReadByte a s))

/-- `MemWrite(a, 1, v)` (20_memory.md R46). -/
def memWrite (a v : Byte) (s : State) : State := (s.periphWrite a v).log (tWrite s.params a v)

/-- `MemBitMod(a, m, v)` (20_memory.md R47); under the ideal peripheral `P[a] <- (P[a] & ~m) | (v & m)` (R53). -/
def memBitMod (a m v : Byte) (s : State) : State :=
  (s.periphWrite a ((Memory.read s.mem a.toNat &&& ~~~m) ||| (v &&& m))).log (tBitmod s.params a m v)

/-- A command to any unit is accepted only when `cmd_ready` holds (10_state.md R14); given to a busy block it has no step
(60_exceptions.md R205; log entry 10). -/
def whenReady (s t : State) : Host.Outcome State Fault Refusal :=
  if s.cmdReady then .next t else .refused .busy

/-- The 33 data bits of a response (30_encoding.md R83). -/
def RspData.bits : RspData → BitVec 33
  | .empty => 0#33
  | .byte b => 0#25 ++ b
  | .image img => 0#1 ++ img.sidh ++ img.sidl ++ img.eid8 ++ img.eid0
  | .ident id ext => BitVec.ofBool ext ++ id
  | .block blk =>
    match blk.ctrlAddr with
    | some c => 0#16 ++ 1#1 ++ c ++ blk.sidhAddr
    | none => 0#16 ++ 0#1 ++ 0#8 ++ blk.sidhAddr

/-- The response word (30_encoding.md R83). -/
def Response.word (r : Response) : RspWord := r.code.bits ++ 0#5 ++ r.data.bits

/-- The response to an undefined command: `Refused`, zero data (30_encoding.md R85). -/
def refusedResponse : Response := ⟨.refused, .empty⟩

end Sys2Proof.Machine
end

