-- ==== Sys2Proof/Machine/Operands.lean ====
section
/-! DEFINITION. Operand forms: the addresses of a register block (43_buffer_index.md R141, R145), the table of the BAM (R142, R144),
and the address operands of the assembler (30_encoding.md R87). The RAS itself has one form, the absolute 8-bit address, unchanged
(41_register_access.md R100). -/

namespace Sys2Proof.Machine

/-- A common register's distance from SIDH (43_buffer_index.md R141). -/
def CommonField.offset : CommonField → Byte
  | .sidh => 0#8
  | .sidl => 1#8
  | .eid8 => 2#8
  | .eid0 => 3#8
  | .dlc => 4#8
  | .data k => BitVec.ofNat 8 (5 + k.val)

/-- `BlockAddr(blk, f)` for the thirteen common registers (43_buffer_index.md R145). -/
def commonAddr (blk : RegisterBlock) (f : CommonField) : Byte := blk.sidhAddr + f.offset

/-- `BlockAddr(blk, f)` (43_buffer_index.md R145): none for CTRL of a TX block, which "has no meaning". -/
def blockAddr (blk : RegisterBlock) : Field → Option Byte
  | .common f => some (commonAddr blk f)
  | .ctrl => blk.ctrlAddr

/-- `RX_CTRL_OFFSET` at 8 bits: -1 or +13 (43_buffer_index.md R141). -/
def ctrlOffset : CtrlPlace → Byte
  | .below => 0xFF#8
  | .above => 0x0D#8

/-- `resolve(kind, index)` (43_buffer_index.md R142), one table per kind (R146): none is `Invalid`. -/
def resolve (p : Params) (kind : Kind) (index : Byte) : Option RegisterBlock :=
  match kind with
  | .tx => p.txSidh[index.toNat]?.map fun S => ⟨S, none⟩
  | .rx => p.rxSidh[index.toNat]?.map fun S => ⟨S, some (S + ctrlOffset p.rxCtrlPlace)⟩

/-- The address an assembler operand stands for (30_encoding.md R87, 43_buffer_index.md R145); none where it names no register. -/
def AddrOperand.eval (p : Params) : AddrOperand → Option Byte
  | .abs a => some a
  | .addrControl => some p.addrControl
  | .addrStatus => some p.addrStatus
  | .addrIntflag => some p.addrIntflag
  | .addrIntenable => some p.addrIntenable
  | .field kind n f => (resolve p kind n).bind fun blk => blockAddr blk f

/-- The command an assembler line stands for (30_encoding.md R87). -/
def AsmLine.assemble (p : Params) : AsmLine → Option Instr
  | .rdr a => (a.eval p).map fun addr => .rdr addr
  | .wrv a value => (a.eval p).map fun addr => .wrv addr value
  | .mbv a mask value => (a.eval p).map fun addr => .mbv addr mask value
  | .enc id ext => some (.enc id ext)
  | .dec sidh sidl eid8 eid0 => some (.dec sidh sidl eid8 eid0)
  | .res kind index => some (.res kind index)

end Sys2Proof.Machine
end

