-- ==== Sys2Proof/Machine/Bam.lean ====
section
/-! DEFINITION. The buffer address multiplexer (43_buffer_index.md): a constant table and a range check (R140). -/

namespace Sys2Proof.Machine

/-- The response to RES (R142): the block, or `Invalid` with zero data (30_encoding.md R83). -/
def resResponse : Option RegisterBlock → Response
  | some blk => ⟨.ok, .block blk⟩
  | none => ⟨.invalid, .empty⟩

/-- RES: the response, and nothing else (R142, R143). -/
def resOp (kind : Kind) (index : Byte) (s : State) : State := s.respond (resResponse (resolve s.params kind index))

/-- RES (R142). -/
def execRes (kind : Kind) (index : Byte) (s : State) : Host.Outcome State Fault Refusal :=
  whenReady s (resOp kind index s)

end Sys2Proof.Machine
end

