-- ==== Sys2Proof/Machine/Codec.lean ====
section
/-! DEFINITION. The arbitration-ID codec (42_arbitration_id_codec.md): pure and total (R120), the single place the bit layout is
defined (R128). -/

namespace Sys2Proof.Machine

/-- `Encode(id, isExtended)` (R121; formats 30_encoding.md R71, R72). Bits of `id` above the branch's range are dropped (R125). -/
def encodeId (id : Ident) (ext : Bool) : IdImage :=
  if ext then
    { sidh := id.extractLsb' 21 8
      sidl := ((id.extractLsb' 18 3).setWidth 8 <<< 5) ||| 0x08#8 ||| (id.extractLsb' 16 2).setWidth 8
      eid8 := id.extractLsb' 8 8
      eid0 := id.extractLsb' 0 8 }
  else
    { sidh := id.extractLsb' 3 8
      sidl := (id.extractLsb' 0 3).setWidth 8 <<< 5
      eid8 := 0x00#8
      eid0 := 0x00#8 }

/-- `isExtended = bit 3 of sidl` (R126), whatever the other bits are. -/
def imageExt (img : IdImage) : Bool := img.sidl.getLsbD 3

/-- The identifier of `Decode(sidh, sidl, eid8, eid0)` (R122): every byte is widened to 32 bits before it is shifted (R127). -/
def imageId (img : IdImage) : Ident :=
  if imageExt img then
    (img.sidh.setWidth 32 <<< 21) ||| ((img.sidl &&& 0xE0#8).setWidth 32 <<< 13)
      ||| ((img.sidl &&& 0x03#8).setWidth 32 <<< 16) ||| (img.eid8.setWidth 32 <<< 8) ||| img.eid0.setWidth 32
  else (img.sidh.setWidth 32 <<< 3) ||| ((img.sidl &&& 0xE0#8).setWidth 32 >>> 5)

/-- ENC: the response, and nothing else (R120). -/
def encOp (id : Ident) (ext : Bool) (s : State) : State := s.respond ⟨.ok, .image (encodeId id ext)⟩

/-- DEC: the response, and nothing else (R120). -/
def decOp (img : IdImage) (s : State) : State := s.respond ⟨.ok, .ident (imageId img) (imageExt img)⟩

/-- ENC (R121). -/
def execEnc (id : Ident) (ext : Bool) (s : State) : Host.Outcome State Fault Refusal := whenReady s (encOp id ext s)

/-- DEC (R122). -/
def execDec (sidh sidl eid8 eid0 : Byte) (s : State) : Host.Outcome State Fault Refusal :=
  whenReady s (decOp ⟨sidh, sidl, eid8, eid0⟩ s)

end Sys2Proof.Machine
end

