-- ==== Sys2Proof/Machine/Flags.lean ====
section
/-! DEFINITION. How every result code is computed (60_exceptions.md R192). The block has no condition codes and no other flag
(10_state.md R17). -/

namespace Sys2Proof.Machine

/-- `Ok` when the check holds, else `Fail` (60_exceptions.md R191). -/
def okIf (b : Bool) : ResultCode := if b then .ok else .fail

/-- The compare of WRV: all eight bits (41_register_access.md R102). -/
def wrvCode (value rb : Byte) : ResultCode := okIf (rb == value)

/-- The compare of MBV: the bits of the mask only (41_register_access.md R103). -/
def mbvCode (mask value rb : Byte) : ResultCode := okIf (rb &&& mask == value &&& mask)

/-- The compare of the operation in progress (41_register_access.md R104); RDR verifies nothing (R109). -/
def verifyCode (r : Ras) (rb : Byte) : ResultCode :=
  match r.op with
  | .rdr => .ok
  | .wrv => wrvCode r.value rb
  | .mbv => mbvCode r.mask r.value rb

/-- The result of SWMODE (44_client_sequences.md R162). `draw` is the free choice of its third case (U5). -/
def swmodeCode (confirmed code : BitVec 3) (r1 : ResultCode) (draw : Bool) : ResultCode :=
  if confirmed != code then .fail
  else if r1 == .ok then .ok
  else okIf draw

/-- `Fail` if either is `Fail`: how LOADFRAME forms its result (44_client_sequences.md R164 step 5). -/
def worse (c d : ResultCode) : ResultCode := if c == .fail || d == .fail then .fail else .ok

end Sys2Proof.Machine
end

