-- ==== Sys2Proof/Machine/Ras.lean ====
section
/-! DEFINITION. The register-access sequencer (41_register_access.md): acceptance, the step relation of R104, and the operations
RDR, WRV and MBV as the whole of their steps (R105). -/

namespace Sys2Proof.Machine

/-- Acceptance of RDR (R101): the operand is latched. -/
def acceptRdr (addr : Byte) (s : State) : State :=
  s.setRas { s.ras with op := .rdr, addr := addr, phase := .primary }

/-- Acceptance of WRV (R102): the operands are latched, the mask as 0xFF. -/
def acceptWrv (addr value : Byte) (s : State) : State :=
  s.setRas { s.ras with op := .wrv, addr := addr, value := value, mask := 0xFF#8, phase := .primary }

/-- Acceptance of MBV (R103): the operands are latched. -/
def acceptMbv (addr mask value : Byte) (s : State) : State :=
  s.setRas { s.ras with op := .mbv, addr := addr, mask := mask, value := value, phase := .primary }

/-- PRIMARY, RDR (R104): the read; `ras_rb` and `ras_result` are written and the response given. -/
def rdrPrimary (s : State) : State :=
  let b := memReadByte s.ras.addr s
  ((memRead s.ras.addr s).setRas { s.ras with rb := b, result := .ok, phase := .idle }).respond ⟨.ok, .byte b⟩

/-- PRIMARY, WRV (R104): the write. -/
def wrvPrimary (s : State) : State :=
  (memWrite s.ras.addr s.ras.value s).setRas { s.ras with phase := .readback }

/-- PRIMARY, MBV (R104): the bit-modify. -/
def mbvPrimary (s : State) : State :=
  (memBitMod s.ras.addr s.ras.mask s.ras.value s).setRas { s.ras with phase := .readback }

/-- READBACK, WRV or MBV (R104): the read of the same address, the compare, the response. -/
def rasReadback (s : State) : State :=
  let b := memReadByte s.ras.addr s
  let c := verifyCode s.ras b
  ((memRead s.ras.addr s).setRas { s.ras with rb := b, result := c, phase := .idle }).respond ⟨c, .empty⟩

/-- One step of the RAS: the row of R104 that the phase and `ras_op` select. In IDLE there is none without a command. -/
def rasStep (s : State) : State :=
  match s.ras.phase with
  | .idle => s
  | .primary =>
    match s.ras.op with
    | .rdr => rdrPrimary s
    | .wrv => wrvPrimary s
    | .mbv => mbvPrimary s
  | .readback => rasReadback s

/-- RDR from acceptance to response: one transaction (R105, R108). -/
def rdrOp (addr : Byte) (s : State) : State := rasStep (acceptRdr addr s)

/-- WRV from acceptance to response: two transactions (R105, R108). -/
def wrvOp (addr value : Byte) (s : State) : State := rasStep (rasStep (acceptWrv addr value s))

/-- MBV from acceptance to response: two transactions (R105, R108). -/
def mbvOp (addr mask value : Byte) (s : State) : State := rasStep (rasStep (acceptMbv addr mask value s))

/-- RDR (R101): `(Ok, byte)`. -/
def execRdr (addr : Byte) (s : State) : Host.Outcome State Fault Refusal := whenReady s (rdrOp addr s)

/-- WRV (R102): `Ok` iff the read-back equals the value. -/
def execWrv (addr value : Byte) (s : State) : Host.Outcome State Fault Refusal := whenReady s (wrvOp addr value s)

/-- MBV (R103): `Ok` iff the read-back equals the value under the mask. -/
def execMbv (addr mask value : Byte) (s : State) : Host.Outcome State Fault Refusal :=
  whenReady s (mbvOp addr mask value s)

end Sys2Proof.Machine
end

