-- ==== Sys2Proof/Machine/Client.lean ====
section
/-! DEFINITION. The client sequences (44_client_sequences.md): the host's software over the block's operations and the two direct
transactions. They have no opcode (30_encoding.md R88); each is a function from the state in which the block is idle to the state
after the whole sequence, since nothing else may use the block or the bus in between (R160). -/

namespace Sys2Proof.Machine

/-- The value byte and the field of a mode: `MODE_CODE[mode] << 5` (30_encoding.md R75). -/
def modeValue (code : BitVec 3) : Byte := code.setWidth 8 <<< 5

/-- The mode field of a register byte: bits 7:5 (30_encoding.md R75). -/
def modeField (b : Byte) : BitVec 3 := b.extractLsb' 5 3

/-- The two block operations of SWMODE (R161): MBV on CONTROL under 0xE0. -/
def swmodeRequest (mode : Mode) (s : State) : State :=
  mbvOp s.params.addrControl 0xE0#8 (modeValue (s.params.modeCode mode)) s

/-- The two block operations of SWMODE (R161), both: the read of STATUS is issued whatever the first gave. -/
def swmodeOps (mode : Mode) (s : State) : State := rdrOp s.params.addrStatus (swmodeRequest mode s)

/-- SWMODE's third case (R162): STATUS shows the mode, the read-back of CONTROL did not. -/
def swmodeOpen (confirmed code : BitVec 3) (r1 : ResultCode) : Bool := confirmed == code && r1 != .ok

/-- SWMODE (R161, R162). In the third case the result is a free choice, and one draw is taken (log entry 7). -/
def swmode (mode : Mode) (s : State) : State :=
  let code := s.params.modeCode mode
  let r1 := (swmodeRequest mode s).ras.result
  let t := swmodeOps mode s
  let confirmed := modeField t.ras.rb
  let u := if swmodeOpen confirmed code r1 then t.drew else t
  u.finish ⟨swmodeCode confirmed code r1 (Config.swmodeThirdCase t.draws), none⟩

/-- RESET (R163), by `RESET_VARIANT`: one T-RESET, or one pulse asked of the external reset line. Always `Ok`; the latches are
untouched (70_reset_and_hazards.md R210). -/
def resetPeripheral (s : State) : State :=
  let t := match s.params.resetVariant with
    | .instruction => s.log (tReset s.params)
    | .pin => { s with pulses := s.pulses + 1 }
  t.finish ⟨.ok, none⟩

/-- The DLC byte LOADFRAME writes (30_encoding.md R74). -/
def dlcByte (f : CanFrame) : Byte :=
  (BitVec.ofNat 8 f.dataLength &&& 0x0F#8) ||| (if f.isRemoteFrame then 0x40#8 else 0x00#8)

/-- The byte LOADFRAME writes to Di (R164 step 4): zero at and beyond the length. -/
def dataByte (f : CanFrame) (i : Fin 8) : Byte := if i.val < f.dataLength then f.data[i] else 0x00#8

/-- The indices of the data registers, ascending. -/
def dataIndices : List (Fin 8) := [0, 1, 2, 3, 4, 5, 6, 7]

/-- The thirteen verified writes of LOADFRAME, in order (R164, R165): address and value. -/
def loadWrites (blk : RegisterBlock) (f : CanFrame) : List (Byte × Byte) :=
  let img := encodeId f.id f.isExtended
  [(commonAddr blk .sidh, img.sidh), (commonAddr blk .sidl, img.sidl), (commonAddr blk .eid8, img.eid8),
    (commonAddr blk .eid0, img.eid0), (commonAddr blk .dlc, dlcByte f)]
    ++ dataIndices.map fun i => (commonAddr blk (.data i), dataByte f i)

/-- WRV of each pair in turn, none skipped after a failure (R165). -/
def wrvAll : List (Byte × Byte) → State → State
  | [], s => s
  | w :: ws, s => wrvAll ws (wrvOp w.1 w.2 s)

/-- The aggregate result of the same writes: `Fail` if any of them is (R164 step 5). -/
def wrvAllCode : List (Byte × Byte) → State → ResultCode
  | [], _ => .ok
  | w :: ws, s => worse (wrvOp w.1 w.2 s).ras.result (wrvAllCode ws (wrvOp w.1 w.2 s))

/-- LOADFRAME (R164): RES, ENC, then thirteen WRV; `Invalid` before any bus traffic. -/
def loadFrame (index : Byte) (f : CanFrame) (s : State) : State :=
  let t := resOp .tx index s
  match resolve s.params .tx index with
  | none => t.finish ⟨.invalid, none⟩
  | some blk =>
    let u := encOp f.id f.isExtended t
    (wrvAll (loadWrites blk f) u).finish ⟨wrvAllCode (loadWrites blk f) u, none⟩

/-- RDR of each address in turn. -/
def rdrAll : List Byte → State → State
  | [], s => s
  | a :: as, s => rdrAll as (rdrOp a s)

/-- The bytes the same reads return, in order. -/
def rdrAllBytes : List Byte → State → List Byte
  | [], _ => []
  | a :: as, s => (rdrOp a s).ras.rb :: rdrAllBytes as (rdrOp a s)

/-- The data registers READFRAME reads: those whose index is below the length (R167 step 5). -/
def readIndices (dataLength : Nat) : List (Fin 8) := dataIndices.filter fun i => i.val < dataLength

/-- `data[i]` from the bytes read, zero where no register was read (R167 step 5, R169). -/
def frameData (bytes : List Byte) : Vector Byte 8 :=
  #v[bytes.getD 0 0, bytes.getD 1 0, bytes.getD 2 0, bytes.getD 3 0,
    bytes.getD 4 0, bytes.getD 5 0, bytes.getD 6 0, bytes.getD 7 0]

/-- The remote flag of an RX block's CTRL (30_encoding.md R76). -/
def remoteFlag (p : Params) (ctrl : Byte) : Bool := ctrl &&& p.rxRemoteMask != 0x00#8

/-- The length a DLC byte carries, with no clamp (R169). -/
def dlcLength (dlc : Byte) : Nat := (dlc &&& 0x0F#8).toNat

/-- The reads of READFRAME after CTRL: the four identifier registers, in order (R167 step 3). -/
def idAddrs (blk : RegisterBlock) : List Byte :=
  [commonAddr blk .sidh, commonAddr blk .sidl, commonAddr blk .eid8, commonAddr blk .eid0]

/-- The image of the bytes read. -/
def imageOf (bytes : List Byte) : IdImage := ⟨bytes.getD 0 0, bytes.getD 1 0, bytes.getD 2 0, bytes.getD 3 0⟩

/-- READFRAME steps 2 to 7 (R167) on a block with its CTRL at `ctrlAddr`. The result of the flag clear is dropped (R168). -/
def readBlock (index : Byte) (blk : RegisterBlock) (ctrlAddr : Byte) (s : State) : State :=
  let s2 := rdrOp ctrlAddr s
  let idBytes := rdrAllBytes (idAddrs blk) s2
  let img := imageOf idBytes
  let s3 := decOp img (rdrAll (idAddrs blk) s2)
  let s4 := rdrOp (commonAddr blk .dlc) s3
  let len := dlcLength s4.ras.rb
  let dataAddrs := (readIndices len).map fun i => commonAddr blk (.data i)
  let bytes := rdrAllBytes dataAddrs s4
  let s5 := rdrAll dataAddrs s4
  let s6 := mbvOp s.params.addrIntflag (s.params.rxPendingMask[index.toNat]?.getD 0#8) 0x00#8 s5
  s6.finish ⟨.ok, some
    { id := imageId img
      isExtended := imageExt img
      isRemoteFrame := remoteFlag s.params s2.ras.rb
      dataLength := len
      data := frameData bytes }⟩

/-- READFRAME (R167): `Invalid` with an unspecified frame (a free value, log entry 8) before any bus traffic, else the frame
and `Ok`. A block without CTRL would be refused (43_buffer_index.md R145); RES never gives one for RX. -/
def readFrame (index : Byte) (s : State) : Host.Outcome State Fault Refusal :=
  let t := resOp .rx index s
  match resolve s.params .rx index with
  | none => .next (t.drew.finish ⟨.invalid, some (Config.unspecifiedFrame t.draws)⟩)
  | some blk =>
    match blockAddr blk .ctrl with
    | none => .refused .undefinedAddress
    | some c => .next (readBlock index blk c t)

/-- The request-to-send byte: the OR of `INSTR_RTS_TXn` over the flags set (30_encoding.md R78). -/
def rtsByte (p : Params) (tx0 tx1 tx2 : Bool) : Byte :=
  (if tx0 then p.instrRts[0] else 0#8) ||| (if tx1 then p.instrRts[1] else 0#8) |||
    (if tx2 then p.instrRts[2] else 0#8)

/-- REQTX (R170): one T-RTS, always `Ok`; with no flag set a model refuses (R171). -/
def reqTx (tx0 tx1 tx2 : Bool) (s : State) : Host.Outcome State Fault Refusal :=
  if tx0 || tx1 || tx2 then .next ((s.log (tRts (rtsByte s.params tx0 tx1 tx2))).finish ⟨.ok, none⟩)
  else .refused .reqTxNoFlag

end Sys2Proof.Machine
end

