-- ==== Sys2Proof/Machine/Dispatch.lean ====
section
/-! DEFINITION. One arm per command: a direct call of its meaning. -/

namespace Sys2Proof.Machine

def exec (i : Instr) (s : State) : Host.Outcome State Fault Refusal :=
  match i with
  | .rdr addr => Sys2Proof.Machine.execRdr addr s
  | .wrv addr value => Sys2Proof.Machine.execWrv addr value s
  | .mbv addr mask value => Sys2Proof.Machine.execMbv addr mask value s
  | .enc id ext => Sys2Proof.Machine.execEnc id ext s
  | .dec sidh sidl eid8 eid0 => Sys2Proof.Machine.execDec sidh sidl eid8 eid0 s
  | .res kind index => Sys2Proof.Machine.execRes kind index s

end Sys2Proof.Machine
end

