-- ==== Sys2Proof/Machine/HostSide.lean ====
section
/-! DEFINITION. What the block does with each move of the host: a command word (30_encoding.md R79, R85), a line of assembler (R87), a
client sequence (44_client_sequences.md), a block reset (70_reset_and_hazards.md R210). -/

namespace Sys2Proof.Machine

/-- An undefined command: `Refused`, no transaction, no latch written (30_encoding.md R85, 60_exceptions.md R203). -/
def refuseCommand (s : State) : State := s.respond refusedResponse

/-- A command word presented to the idle block, run whole (41_register_access.md R105). -/
def runCommand (w : CmdWord) (s : State) : Host.Outcome State Fault Refusal :=
  match decode w with
  | .instr i => exec i s
  | .reject _ => .next (refuseCommand s)

/-- Acceptance of a command by the idle block (41_register_access.md R104): the RAS latches its operands, the CODEC and the
BAM complete in the accepting step. -/
def acceptInstr (i : Instr) (s : State) : Host.Outcome State Fault Refusal :=
  match i with
  | .rdr addr => .next (acceptRdr addr s)
  | .wrv addr value => .next (acceptWrv addr value s)
  | .mbv addr mask value => .next (acceptMbv addr mask value s)
  | .enc id ext => exec (.enc id ext) s
  | .dec sidh sidl eid8 eid0 => exec (.dec sidh sidl eid8 eid0) s
  | .res kind index => exec (.res kind index) s

/-- A command word presented to the idle block, accepted only (41_register_access.md R104). -/
def presentCommand (w : CmdWord) (s : State) : Host.Outcome State Fault Refusal :=
  match decode w with
  | .instr i => acceptInstr i s
  | .reject _ => .next (refuseCommand s)

/-- A line of assembler, run whole; an operand that names no register is refused (43_buffer_index.md R145). -/
def runLine (l : AsmLine) (s : State) : Host.Outcome State Fault Refusal :=
  match l.assemble s.params with
  | some i => exec i s
  | none => .refused .undefinedAddress

/-- Block reset (70_reset_and_hazards.md R210): IDLE; every other latch is left unspecified, a free value each (log entry 9).
No response, no transaction; the trace stays. -/
def blockReset (s : State) : State :=
  let b := Config.resetBytes s.draws
  (s.setRas
    { phase := .idle
      op := Config.resetOp s.draws
      addr := b[0]
      mask := b[1]
      value := b[2]
      rb := b[3]
      result := Config.resetResult s.draws }).drew

/-- The step of the busy block: the row of 41_register_access.md R104, where there is one. -/
def rasTick (s : State) : Host.Outcome State Fault Refusal :=
  match s.ras.phase, s.ras.op with
  | .readback, .rdr => .fault .rasNoRow
  | _, _ => .next (rasStep s)

/-- The idle block: the host makes its next move, if it has one. -/
def idleStep (s : State) : Host.Outcome State Fault Refusal :=
  match s.host with
  | [] => .next s
  | .command w :: h => runCommand w (s.withHost h)
  | .present w :: h => presentCommand w (s.withHost h)
  | .line l :: h => runLine l (s.withHost h)
  | .wait :: h => .next (s.withHost h)
  | .blockReset :: h => .next (blockReset (s.withHost h))
  | .swmode mode :: h => .next (swmode mode (s.withHost h))
  | .reset :: h => .next (resetPeripheral (s.withHost h))
  | .loadFrame index f :: h => .next (loadFrame index f (s.withHost h))
  | .readFrame index :: h => readFrame index (s.withHost h)
  | .reqTx tx0 tx1 tx2 :: h => reqTx tx0 tx1 tx2 (s.withHost h)

/-- The busy block: the host can only let it run or reset it; a command stays with the host (70_reset_and_hazards.md R217). -/
def busyStep (s : State) : Host.Outcome State Fault Refusal :=
  match s.host with
  | .blockReset :: h => .next (blockReset (s.withHost h))
  | .wait :: h => rasTick (s.withHost h)
  | _ => rasTick s

/-- The state in which the host's next move is to present the command word `w` to the idle block. -/
def presentNext (w : CmdWord) (s : State) : State :=
  (s.setRas { s.ras with phase := .idle }).withHost (.command w :: s.host)

end Sys2Proof.Machine
end

