-- ==== Sys2Proof/Machine/Step.lean ====
section
/-! DEFINITION. One step of the machine (41_register_access.md R104; 10_state.md R14, R16), and the host's question: a command placed
where the next step takes it. -/

namespace Sys2Proof.Machine

/-- One step: the idle block takes the host's next move; the busy block goes on with its operation. -/
def step (s : State) : Host.Outcome State Fault Refusal :=
  if s.cmdReady then idleStep s else busyStep s

/-- `s` with the command of `nbits` bits `w` as the host's next move, to a block that is idle. The block fetches from no memory
(10_state.md R16): the host presents each command (log entry 4). -/
def State.withFetchWord (s : State) (nbits w : Nat) : State := presentNext (BitVec.ofNat 48 (w % 2 ^ nbits)) s

end Sys2Proof.Machine
end

