-- ==== Sys2Proof/Safety.lean ====
section
/-! DEFINITION. What a safe run is, in the terms the claims use: the invariants of the machine, and which bytes a transaction stores
to. -/

namespace Sys2Proof.Machine

/-- Latches a run can reach (10_state.md R12, R13; 41_register_access.md R104): READBACK belongs to WRV and MBV only, and in the
middle of a WRV the mask is 0xFF. -/
def Ras.wf (r : Ras) : Bool :=
  match r.phase, r.op with
  | .readback, .rdr => false
  | .readback, .wrv => r.mask == 0xFF#8
  | .primary, .wrv => r.mask == 0xFF#8
  | _, _ => true

/-- The request-to-send bytes REQTX can send: the OR over a non-empty set of flags (30_encoding.md R78). -/
def rtsBytes (p : Params) : List Byte :=
  [rtsByte p true false false, rtsByte p false true false, rtsByte p false false true, rtsByte p true true false,
    rtsByte p true false true, rtsByte p false true true, rtsByte p true true true]

/-- The transaction has one of the five formats (30_encoding.md R77, 41_register_access.md R111). -/
def Transaction.formatOk (p : Params) (t : Transaction) : Bool :=
  match t.addr, t.payload, t.response with
  | some _, [], [_] => t.instr == p.instrRead
  | some _, [_], [] => t.instr == p.instrWrite
  | some _, [_, _], [] => t.instr == p.instrBitmod
  | none, [], [] => t.instr == p.instrReset || (rtsBytes p).contains t.instr
  | _, _, _ => false

/-- The transaction the operation in progress issues first (41_register_access.md R102, R103), as the trace shows it. -/
def primaryOf (p : Params) (r : Ras) : Option Transaction :=
  match r.op with
  | .rdr => none
  | .wrv => some (tWrite p r.addr r.value)
  | .mbv => some (tBitmod p r.addr r.mask r.value)

/-- Before the verifying read, the last thing on the bus is the write or bit-modify of the same operation
(41_register_access.md R102, "then immediately"). -/
def State.readbackNext (s : State) : Bool :=
  s.ras.phase != .readback || s.trace.getLast? == primaryOf s.params s.ras

/-- The code and the data of a response agree (30_encoding.md R83, 60_exceptions.md R192): data comes with `Ok` only. -/
def Response.shapeOk (r : Response) : Bool := r.code == .ok || r.data == .empty

/-- A frame READFRAME built (44_client_sequences.md R169): a 4-bit length, zero bytes at and beyond it, an identifier in range. -/
def frameAsRead (f : CanFrame) : Bool :=
  decide (f.dataLength ≤ 15) && idInRange f.id f.isExtended &&
    dataIndices.all fun i => decide (i.val < f.dataLength) || f.data[i] == 0x00#8

/-- A result a client sequence can return (60_exceptions.md R192): never `Refused`; with a frame never `Fail`, and a frame that
comes with `Ok` is as READFRAME builds it. -/
def ClientResult.shapeOk (r : ClientResult) : Bool :=
  match r.frame with
  | none => r.code != .refused
  | some f => r.code == .invalid || (r.code == .ok && frameAsRead f)

/-- The invariant of the machine. -/
def State.inv (s : State) : Bool :=
  s.ras.wf && s.readbackNext && s.trace.all (Transaction.formatOk s.params) && s.responses.all Response.shapeOk &&
    s.results.all ClientResult.shapeOk && Memory.wf s.mem

/-- What no block operation touches: the parameters, the results and pulses of the client sequences, the host's moves, the
choice of the peripheral. -/
def sameOutside (s t : State) : Prop :=
  t.params = s.params ∧ t.results = s.results ∧ t.pulses = s.pulses ∧ t.host = s.host ∧ t.periph = s.periph

/-- Every byte of the ideal peripheral's memory reads as before, except at the address `a`. -/
def sameMemoryBut (a : Byte) (s t : State) : Prop :=
  ∀ x, x ≠ a.toNat → Memory.read t.mem x = Memory.read s.mem x

end Sys2Proof.Machine
end

