-- ==== Sys2Proof/Certificates/Slice0/Obligations.lean ====
section
/-! DEFINITION. The statements for the provers. Each docstring names the rule of spec/ it formalises; a statement that rests on a
choice the spec marks as its own ("decision", "derived") or on a log entry says so. Nothing here rests on a free value. -/

open Sys2Proof Sys2Proof.Machine

/-! ## Command words -/

/-- Words of 95_test_vectors.md (A1, W1, M6, E20, E3, X16, B3, B6) decode to the commands they stand for. The words are the spec's own
choice (30_encoding.md R90). -/
def Obligations.SpecWordsDecode : Prop :=
  decode 0x1100000E0000#48 = .instr (.rdr 0x0E#8) ∧
  decode 0x1200003600A5#48 = .instr (.wrv 0x36#8 0xA5#8) ∧
  decode 0x1300000FE09F#48 = .instr (.mbv 0x0F#8 0xE0#8 0x9F#8) ∧
  decode 0x210112345678#48 = .instr (.enc 0x12345678#32 true) ∧
  decode 0x210000000123#48 = .instr (.enc 0x123#32 false) ∧
  decode 0x220091A85678#48 = .instr (.dec 0x91#8 0xA8#8 0x56#8 0x78#8) ∧
  decode 0x310000000002#48 = .instr (.res .tx 0x02#8) ∧
  decode 0x310000000100#48 = .instr (.res .rx 0x00#8)

/-- Decoding the word of any command gives the command back, every operand at every value (30_encoding.md R79 to R82). -/
def Obligations.EncodedCommandDecodesBack : Prop :=
  ∀ i : Instr, decode (encode i) = .instr i

/-- A word that decodes to a command is that command's word: no two words mean the same command (30_encoding.md R79 to R82, R85). -/
def Obligations.DecodedWordIsTheEncoding : Prop :=
  ∀ (w : CmdWord) (i : Instr), decode w = .instr i → encode i = w

/-- A word is undefined exactly when its opcode is none of the six or a bit that R81 calls "zero" is 1 (30_encoding.md R85, the spec's
decision D4), and the reject says which. -/
def Obligations.UndefinedByOpcodeOrZeroBits : Prop :=
  ∀ w : CmdWord,
    (decode w = .reject .undefinedOpcode ↔ opcodeOf w ∉ definedOpcodes) ∧
    (decode w = .reject .nonzeroReserved ↔ opcodeOf w ∈ definedOpcodes ∧ w &&& zeroBits (opcodeOf w) ≠ 0#48)

/-- An undefined command presented to the idle block, in either reading, is answered `Refused` with zero data (the word 0xC000000000);
no transaction is issued, no latch is written, nothing else changes (30_encoding.md R85, 60_exceptions.md R203; decision D4). -/
def Obligations.UndefinedCommandIsRefused : Prop :=
  ∀ (s : State) (w : CmdWord) (h : List HostInput) (why : Reject),
    s.ras.phase = .idle → (s.host = .command w :: h ∨ s.host = .present w :: h) → decode w = .reject why →
    step s = .next { s with host := h, responses := s.responses ++ [⟨.refused, .empty⟩] } ∧
    Response.word ⟨.refused, .empty⟩ = 0xC000000000#40

/-- When the host presents a command word that decodes to `i` to the idle block, the step is `exec i` with that move of the host
done. -/
def Obligations.StepRunsTheDecodedCommand : Prop :=
  ∀ (s : State) (w : CmdWord) (h : List HostInput) (i : Instr),
    s.ras.phase = .idle → s.host = .command w :: h → decode w = .instr i →
    step s = exec i { s with host := h }

/-- A line of assembler runs the command it stands for (30_encoding.md R87; the syntax is decision D26): an address operand is a number,
a parameter's name, or a block field at the address 43_buffer_index.md R145 gives it (the spec's derivation from R141, whose layout is
decision D9); each form of a line runs its own command. CTRL of a TX buffer has no address and is refused (R145). -/
def Obligations.AssemblerLineRuns : Prop :=
  ∀ (s : State) (h : List HostInput), s.ras.phase = .idle →
    (∀ (a : AddrOperand) (addr mask value : Byte),
      (a = .abs addr ∨
        (a = .addrControl ∧ addr = s.params.addrControl) ∨ (a = .addrStatus ∧ addr = s.params.addrStatus) ∨
        (a = .addrIntflag ∧ addr = s.params.addrIntflag) ∨ (a = .addrIntenable ∧ addr = s.params.addrIntenable) ∨
        (∃ (kind : Kind) (n S : Byte) (f : CommonField), a = .field kind n (.common f) ∧
          some S = (match kind with | .tx => s.params.txSidh[n.toNat]? | .rx => s.params.rxSidh[n.toNat]?) ∧
          addr = (match f with
            | .sidh => S
            | .sidl => S + 1#8
            | .eid8 => S + 2#8
            | .eid0 => S + 3#8
            | .dlc => S + 4#8
            | .data k => S + BitVec.ofNat 8 (5 + k.val))) ∨
        (∃ n S : Byte, a = .field .rx n .ctrl ∧ some S = s.params.rxSidh[n.toNat]? ∧
          addr = (match s.params.rxCtrlPlace with | .below => S - 1#8 | .above => S + 13#8))) →
      (s.host = .line (.rdr a) :: h → step s = exec (.rdr addr) { s with host := h }) ∧
      (s.host = .line (.wrv a value) :: h → step s = exec (.wrv addr value) { s with host := h }) ∧
      (s.host = .line (.mbv a mask value) :: h → step s = exec (.mbv addr mask value) { s with host := h })) ∧
    (∀ (id : Ident) (ext : Bool), s.host = .line (.enc id ext) :: h → step s = exec (.enc id ext) { s with host := h }) ∧
    (∀ sidh sidl eid8 eid0 : Byte, s.host = .line (.dec sidh sidl eid8 eid0) :: h →
      step s = exec (.dec sidh sidl eid8 eid0) { s with host := h }) ∧
    (∀ (kind : Kind) (index : Byte), s.host = .line (.res kind index) :: h →
      step s = exec (.res kind index) { s with host := h }) ∧
    (∀ (n mask value : Byte) (a : AddrOperand) (l : AsmLine), n.toNat < 3 → a = .field .tx n .ctrl →
      (l = .rdr a ∨ l = .wrv a value ∨ l = .mbv a mask value) → s.host = .line l :: h → step s = .refused .undefinedAddress)

/-- A line whose address names a field of a buffer that does not exist is refused: TX from 3, RX from 2 (the model's choice, DEDUCED,
log entry 19: 43_buffer_index.md R145 gives an address only to fields of a block that RES returns). -/
def Obligations.NameOfNoBufferIsRefused : Prop :=
  ∀ (s : State) (h : List HostInput) (kind : Kind) (n mask value : Byte) (f : Field) (a : AddrOperand) (l : AsmLine),
    s.ras.phase = .idle → (kind = .tx → 3 ≤ n.toNat) → (kind = .rx → 2 ≤ n.toNat) → a = .field kind n f →
    (l = .rdr a ∨ l = .wrv a value ∨ l = .mbv a mask value) → s.host = .line l :: h →
    step s = .refused .undefinedAddress

/-- The response word: code in 39:38 (`Ok` 0, `Fail` 1, `Invalid` 2, `Refused` 3), zeros in 37:33, data in 32:0, by kind of data
(30_encoding.md R83, R84; decisions D3, D28). -/
def Obligations.ResponseWordLayout : Prop :=
  ∀ (c : ResultCode),
    (∀ d : RspData, (Response.word ⟨c, d⟩).extractLsb' 38 2 =
        (match c with | .ok => 0#2 | .fail => 1#2 | .invalid => 2#2 | .refused => 3#2) ∧
      (Response.word ⟨c, d⟩).extractLsb' 33 5 = 0#5 ∧
      (Response.word ⟨c, d⟩).extractLsb' 0 33 = d.bits) ∧
    RspData.bits .empty = 0#33 ∧
    (∀ b : Byte, (RspData.bits (.byte b)).extractLsb' 0 8 = b ∧ (RspData.bits (.byte b)).extractLsb' 8 25 = 0#25) ∧
    (∀ img : IdImage, (RspData.bits (.image img)).extractLsb' 24 8 = img.sidh ∧
      (RspData.bits (.image img)).extractLsb' 16 8 = img.sidl ∧ (RspData.bits (.image img)).extractLsb' 8 8 = img.eid8 ∧
      (RspData.bits (.image img)).extractLsb' 0 8 = img.eid0 ∧ (RspData.bits (.image img)).getLsbD 32 = false) ∧
    (∀ (id : Ident) (ext : Bool), (RspData.bits (.ident id ext)).extractLsb' 0 32 = id ∧
      (RspData.bits (.ident id ext)).getLsbD 32 = ext) ∧
    (∀ (S : Byte) (k : Option Byte), (RspData.bits (.block ⟨S, k⟩)).extractLsb' 0 8 = S ∧
      (RspData.bits (.block ⟨S, k⟩)).extractLsb' 8 8 = k.getD 0#8 ∧
      (RspData.bits (.block ⟨S, k⟩)).getLsbD 16 = k.isSome ∧ (RspData.bits (.block ⟨S, k⟩)).extractLsb' 17 16 = 0#16)

/-! ## The register-access sequencer -/

/-- RDR on the idle block: one T-READ of the address as given, whose byte is the response with `Ok`; the latches the rule names, and
no other, are written (41_register_access.md R101). `s.busAnswer addr` is whatever byte the bus returns. That RDR answers with a code,
always `Ok`, is the spec's decision D29. -/
def Obligations.RdrReadsOneRegister : Prop :=
  ∀ (addr : Byte) (s : State), s.ras.phase = .idle →
    (opcodeOf (encode (.rdr addr)) = 0x11#8 ∧ (encode (.rdr addr)).extractLsb' 24 16 = 0#16 ∧
      byteAt 16 (encode (.rdr addr)) = addr ∧ byteAt 8 (encode (.rdr addr)) = 0#8 ∧ byteAt 0 (encode (.rdr addr)) = 0#8) ∧
    ∃ t, exec (.rdr addr) s = .next t ∧
      t.ras = { s.ras with op := .rdr, addr := addr, rb := s.busAnswer addr, result := .ok, phase := .idle } ∧
      t.trace = s.trace ++ [⟨s.params.instrRead, some addr, [], [s.busAnswer addr]⟩] ∧
      t.responses = s.responses ++ [⟨.ok, .byte (s.busAnswer addr)⟩]

/-- WRV on the idle block: T-WRITE, then T-READ of the same address, whatever the outcome; `Ok` when the read-back byte equals the
value in all eight bits, else `Fail` (41_register_access.md R102). `rb` is the byte the bus returns after the write. -/
def Obligations.WrvWritesThenVerifies : Prop :=
  ∀ (addr value : Byte) (s : State), s.ras.phase = .idle →
    (opcodeOf (encode (.wrv addr value)) = 0x12#8 ∧ (encode (.wrv addr value)).extractLsb' 24 16 = 0#16 ∧
      byteAt 16 (encode (.wrv addr value)) = addr ∧ byteAt 8 (encode (.wrv addr value)) = 0#8 ∧
      byteAt 0 (encode (.wrv addr value)) = value) ∧
    ∃ (rb : Byte) (code : ResultCode) (t : State), exec (.wrv addr value) s = .next t ∧
      rb = (memWrite addr value s).busAnswer addr ∧
      code = (if rb = value then .ok else .fail) ∧
      t.ras = ⟨.idle, .wrv, addr, 0xFF#8, value, rb, code⟩ ∧
      t.trace = s.trace ++ [⟨s.params.instrWrite, some addr, [value], []⟩, ⟨s.params.instrRead, some addr, [], [rb]⟩] ∧
      t.responses = s.responses ++ [⟨code, .empty⟩]

/-- MBV on the idle block: T-BITMOD with the mask and then the value as given, then T-READ of the same address; `Ok` when the
read-back equals the value under the mask, else `Fail` (41_register_access.md R103). -/
def Obligations.MbvModifiesThenVerifies : Prop :=
  ∀ (addr mask value : Byte) (s : State), s.ras.phase = .idle →
    (opcodeOf (encode (.mbv addr mask value)) = 0x13#8 ∧ (encode (.mbv addr mask value)).extractLsb' 24 16 = 0#16 ∧
      byteAt 16 (encode (.mbv addr mask value)) = addr ∧ byteAt 8 (encode (.mbv addr mask value)) = mask ∧
      byteAt 0 (encode (.mbv addr mask value)) = value) ∧
    ∃ (rb : Byte) (code : ResultCode) (t : State), exec (.mbv addr mask value) s = .next t ∧
      rb = (memBitMod addr mask value s).busAnswer addr ∧
      code = (if rb &&& mask = value &&& mask then .ok else .fail) ∧
      t.ras = ⟨.idle, .mbv, addr, mask, value, rb, code⟩ ∧
      t.trace = s.trace ++ [⟨s.params.instrBitmod, some addr, [mask, value], []⟩, ⟨s.params.instrRead, some addr, [], [rb]⟩] ∧
      t.responses = s.responses ++ [⟨code, .empty⟩]

/-- The transactions of a RAS operation are fixed by the operation alone (41_register_access.md R108, R111): RDR one, WRV and MBV two,
each a read, a write or a bit-modify, and never one of the two without an address. -/
def Obligations.RasTransactionsAreFixed : Prop :=
  ∀ (i : Instr) (n : Nat) (addr mask value : Byte) (s t : State),
    (i = .rdr addr ∧ n = 1 ∨ i = .wrv addr value ∧ n = 2 ∨ i = .mbv addr mask value ∧ n = 2) → exec i s = .next t →
    ∃ es : List Transaction, t.trace = s.trace ++ es ∧ es.length = n ∧
      ∀ e ∈ es, e.addr = some addr ∧
        ((e.instr = s.params.instrRead ∧ e.payload = [] ∧ e.response.length = 1) ∨
          (e.instr = s.params.instrWrite ∧ e.payload.length = 1 ∧ e.response = []) ∨
          (e.instr = s.params.instrBitmod ∧ e.payload.length = 2 ∧ e.response = []))

/-- The frame of RDR, WRV and MBV: the parameters, the client results, the pulses, the host's moves and the choice of the peripheral
stay; the trace and the responses only grow; of the oracle's script at most the next byte is used; under the oracle no byte of memory
changes, and under the ideal peripheral (20_memory.md R53) none but the one at `addr`, and none at all for RDR. -/
def Obligations.RasOperationsFrame : Prop :=
  ∀ (addr mask value : Byte) (i : Instr) (s t : State),
    (i = .rdr addr ∨ i = .wrv addr value ∨ i = .mbv addr mask value) → exec i s = .next t →
    sameOutside s t ∧ sameMemoryBut addr s t ∧ s.trace <+: t.trace ∧ s.responses <+: t.responses ∧
    (i = .rdr addr → t.mem = s.mem) ∧
    (s.periph = .oracle → t.mem = s.mem ∧ t.script = s.script.tail) ∧
    (s.periph = .ideal → t.script = s.script ∧ t.draws = s.draws)

/-- Acceptance (41_register_access.md R104, first row; decision D5): a defined command accepted by the idle block leaves a RAS
operation in PRIMARY with its operands latched and nothing issued or answered. -/
def Obligations.AcceptanceLatchesOperands : Prop :=
  ∀ (s : State) (w : CmdWord) (h : List HostInput) (addr mask value : Byte),
    s.ras.phase = .idle → s.host = .present w :: h →
    (decode w = .instr (.rdr addr) →
      step s = .next { s with host := h, ras := { s.ras with op := .rdr, addr := addr, phase := .primary } }) ∧
    (decode w = .instr (.wrv addr value) →
      step s = .next { s with host := h, ras := ⟨.primary, .wrv, addr, 0xFF#8, value, s.ras.rb, s.ras.result⟩ }) ∧
    (decode w = .instr (.mbv addr mask value) →
      step s = .next { s with host := h, ras := ⟨.primary, .mbv, addr, mask, value, s.ras.rb, s.ras.result⟩ })

/-- The rows of the RAS step relation for PRIMARY and READBACK (41_register_access.md R104; decision D5), when the host presents nothing
or waits: a wait is used up and changes nothing else (the move is the model's own, log entry 4). In IDLE nothing presented means that
nothing changes. -/
def Obligations.RasStepRows : Prop :=
  ∀ (s : State) (h : List HostInput), (s.host = [] ∧ h = []) ∨ s.host = .wait :: h →
    (s.ras.phase = .idle → step s = .next { s with host := h }) ∧
    (s.ras.phase = .primary → s.ras.op = .rdr → ∃ t, step s = .next t ∧ t.host = h ∧
      t.ras = { s.ras with rb := s.busAnswer s.ras.addr, result := .ok, phase := .idle } ∧
      t.trace = s.trace ++ [tRead s.params s.ras.addr (s.busAnswer s.ras.addr)] ∧
      t.responses = s.responses ++ [⟨.ok, .byte (s.busAnswer s.ras.addr)⟩]) ∧
    (s.ras.phase = .primary → s.ras.op = .wrv → ∃ t, step s = .next t ∧ t.host = h ∧
      t.ras = { s.ras with phase := .readback } ∧
      t.trace = s.trace ++ [tWrite s.params s.ras.addr s.ras.value] ∧ t.responses = s.responses) ∧
    (s.ras.phase = .primary → s.ras.op = .mbv → ∃ t, step s = .next t ∧ t.host = h ∧
      t.ras = { s.ras with phase := .readback } ∧
      t.trace = s.trace ++ [tBitmod s.params s.ras.addr s.ras.mask s.ras.value] ∧ t.responses = s.responses) ∧
    (s.ras.phase = .readback → s.ras.op ≠ .rdr → ∃ (code : ResultCode) (t : State), step s = .next t ∧ t.host = h ∧
      code = (if s.ras.op = .wrv then (if s.busAnswer s.ras.addr = s.ras.value then .ok else .fail)
        else (if s.busAnswer s.ras.addr &&& s.ras.mask = s.ras.value &&& s.ras.mask then .ok else .fail)) ∧
      t.ras = { s.ras with rb := s.busAnswer s.ras.addr, result := code, phase := .idle } ∧
      t.trace = s.trace ++ [tRead s.params s.ras.addr (s.busAnswer s.ras.addr)] ∧
      t.responses = s.responses ++ [⟨code, .empty⟩])

/-- The big-step reading equals the small steps (41_register_access.md R105, the spec's own derivation): presenting a command and
letting the block run gives exactly the state that running it as one step gives, when the host does not reset or wait in between. -/
def Obligations.BigStepEqualsSmallSteps : Prop :=
  ∀ (s : State) (w : CmdWord) (i : Instr) (h : List HostInput),
    s.ras.phase = .idle → decode w = .instr i → (∀ m ∈ h.head?, m ≠ .blockReset ∧ m ≠ .wait) →
    Host.Core.run Sys2Proof.core
        (match i with | .rdr _ => 2 | .wrv _ _ => 3 | .mbv _ _ _ => 3 | .enc _ _ => 1 | .dec _ _ _ _ => 1 | .res _ _ => 1)
        { s with host := .present w :: h }
      = Host.Core.run Sys2Proof.core 1 { s with host := .command w :: h }

/-- An accepted operation always finishes (41_register_access.md R104; the bus always returns, decision D24): from any busy state with
legal latches the block is idle after at most two steps and has answered exactly once. -/
def Obligations.AcceptedOperationFinishes : Prop :=
  ∀ s : State, s.ras.wf = true → s.ras.phase ≠ .idle → s.host = [] →
    ∃ (k : Nat) (t : State), k ≤ 2 ∧ Host.Core.run Sys2Proof.core k s = .next t ∧ t.ras.phase = .idle ∧
      t.responses.length = s.responses.length + 1 ∧ t.trace.length = s.trace.length + k

/-- A command given to a busy block has no step (60_exceptions.md R205, 70_reset_and_hazards.md R217; decision D7, log entry 10). -/
def Obligations.BusyBlockTakesNoCommand : Prop :=
  ∀ (i : Instr) (s : State), s.ras.phase ≠ .idle → exec i s = .refused .busy

/-- While the block is busy the host has no move but a reset: anything else it would present stays with it, and the block does what
it does with no host at all (70_reset_and_hazards.md R217; decision D7). -/
def Obligations.BusyBlockIgnoresTheHost : Prop :=
  ∀ (s t : State) (m : HostInput) (h : List HostInput),
    s.ras.phase ≠ .idle → s.host = m :: h → m ≠ .blockReset → m ≠ .wait → step s = .next t →
    t.host = s.host ∧ step { s with host := [] } = .next { t with host := [] }

/-- A block reset leaves the block idle, in the middle of an operation too; it gives no response, issues no transaction, and the
transactions already issued stay (70_reset_and_hazards.md R210; decision D6). -/
def Obligations.BlockResetAbandons : Prop :=
  ∀ (s : State) (h : List HostInput), s.host = .blockReset :: h →
    ∃ t, step s = .next t ∧ t.ras.phase = .idle ∧ t.trace = s.trace ∧ t.responses = s.responses ∧ t.results = s.results ∧
      t.mem = s.mem ∧ t.script = s.script ∧ t.params = s.params ∧ t.host = h

/-- The result of a block operation does not depend on the latches an earlier one left (10_state.md R10, R15, the spec's own
derivation): with other latches in the idle block, the answer, the bus trace, the memory and the rest are the same. -/
def Obligations.OldLatchesAreUnobservable : Prop :=
  ∀ (i : Instr) (s t : State) (r : Ras), r.phase = .idle → exec i s = .next t →
    ∃ t', exec i { s with ras := r } = .next t' ∧ { t' with ras := t.ras } = t

/-- The byte of a read is free under the oracle (20_memory.md R52; decision D16, log entry 5): for every byte there is a state, the
same but for what the bus will answer, in which RDR returns it, and so for the read-back of WRV and MBV. -/
def Obligations.ReadByteIsFree : Prop :=
  ∀ (addr mask value b : Byte) (s : State), s.ras.phase = .idle → s.periph = .oracle →
    (∃ t, exec (.rdr addr) { s with script := b :: s.script } = .next t ∧ t.responses = s.responses ++ [⟨.ok, .byte b⟩]) ∧
    (∃ t, exec (.wrv addr value) { s with script := b :: s.script } = .next t ∧
      t.responses = s.responses ++ [⟨if b = value then .ok else .fail, .empty⟩]) ∧
    (∃ t, exec (.mbv addr mask value) { s with script := b :: s.script } = .next t ∧
      t.responses = s.responses ++ [⟨if b &&& mask = value &&& mask then .ok else .fail, .empty⟩])

/-- The ideal peripheral (20_memory.md R53; decision D16): WRV and MBV always return `Ok` and leave the register as the rule says,
and RDR returns the register. -/
def Obligations.IdealPeripheralVerifies : Prop :=
  ∀ (addr mask value : Byte) (s : State), s.ras.phase = .idle → s.periph = .ideal → Memory.wf s.mem = true →
    (∃ t, exec (.rdr addr) s = .next t ∧ t.responses = s.responses ++ [⟨.ok, .byte (Memory.read s.mem addr.toNat)⟩]) ∧
    (∃ t, exec (.wrv addr value) s = .next t ∧ t.responses = s.responses ++ [⟨.ok, .empty⟩] ∧
      Memory.read t.mem addr.toNat = value) ∧
    (∃ t, exec (.mbv addr mask value) s = .next t ∧ t.responses = s.responses ++ [⟨.ok, .empty⟩] ∧
      Memory.read t.mem addr.toNat = ((Memory.read s.mem addr.toNat &&& ~~~mask) ||| (value &&& mask)))

/-! ## The arbitration-ID codec -/

/-- The identifier image, extended (30_encoding.md R71), field by field. -/
def Obligations.ExtendedImageLayout : Prop :=
  ∀ id : Ident,
    (encodeId id true).sidh = id.extractLsb' 21 8 ∧
    (encodeId id true).sidl.extractLsb' 5 3 = id.extractLsb' 18 3 ∧
    (encodeId id true).sidl.getLsbD 4 = false ∧
    (encodeId id true).sidl.getLsbD 3 = true ∧
    (encodeId id true).sidl.getLsbD 2 = false ∧
    (encodeId id true).sidl.extractLsb' 0 2 = id.extractLsb' 16 2 ∧
    (encodeId id true).eid8 = id.extractLsb' 8 8 ∧
    (encodeId id true).eid0 = id.extractLsb' 0 8

/-- The identifier image, standard (30_encoding.md R72), field by field. -/
def Obligations.StandardImageLayout : Prop :=
  ∀ id : Ident,
    (encodeId id false).sidh = id.extractLsb' 3 8 ∧
    (encodeId id false).sidl.extractLsb' 5 3 = id.extractLsb' 0 3 ∧
    (encodeId id false).sidl.extractLsb' 0 5 = 0#5 ∧
    (encodeId id false).eid8 = 0#8 ∧
    (encodeId id false).eid0 = 0#8

/-- ENC on the idle block answers `Ok` with the four bytes of the pseudocode, and changes nothing else
(42_arbitration_id_codec.md R121). -/
def Obligations.EncRespondsWithTheImage : Prop :=
  ∀ (id : Ident) (ext : Bool) (s : State), s.ras.phase = .idle →
    (opcodeOf (encode (.enc id ext)) = 0x21#8 ∧ (encode (.enc id ext)).extractLsb' 33 7 = 0#7 ∧
      (encode (.enc id ext)).getLsbD 32 = ext ∧ (encode (.enc id ext)).extractLsb' 0 32 = id) ∧
    ∃ sidh sidl eid8 eid0 : Byte,
      exec (.enc id ext) s = .next { s with responses := s.responses ++ [⟨.ok, .image ⟨sidh, sidl, eid8, eid0⟩⟩] } ∧
      (ext = true → sidh = id.extractLsb' 21 8 ∧
        sidl = ((id.extractLsb' 18 3).setWidth 8 <<< 5 ||| 0x08#8 ||| (id.extractLsb' 16 2).setWidth 8) ∧
        eid8 = id.extractLsb' 8 8 ∧ eid0 = id.extractLsb' 0 8) ∧
      (ext = false → sidh = id.extractLsb' 3 8 ∧ sidl = (id.extractLsb' 0 3).setWidth 8 <<< 5 ∧ eid8 = 0#8 ∧ eid0 = 0#8)

/-- DEC on the idle block answers `Ok` with the identifier and the flag of the pseudocode, and changes nothing else
(42_arbitration_id_codec.md R122). -/
def Obligations.DecRespondsWithTheIdentifier : Prop :=
  ∀ (sidh sidl eid8 eid0 : Byte) (s : State), s.ras.phase = .idle →
    (opcodeOf (encode (.dec sidh sidl eid8 eid0)) = 0x22#8 ∧ byteAt 32 (encode (.dec sidh sidl eid8 eid0)) = 0#8 ∧
      byteAt 24 (encode (.dec sidh sidl eid8 eid0)) = sidh ∧ byteAt 16 (encode (.dec sidh sidl eid8 eid0)) = sidl ∧
      byteAt 8 (encode (.dec sidh sidl eid8 eid0)) = eid8 ∧ byteAt 0 (encode (.dec sidh sidl eid8 eid0)) = eid0) ∧
    ∃ id : Ident,
      exec (.dec sidh sidl eid8 eid0) s = .next { s with responses := s.responses ++ [⟨.ok, .ident id (sidl.getLsbD 3)⟩] } ∧
      (sidl.getLsbD 3 = true → id = (sidh.setWidth 32 <<< 21 ||| (sidl &&& 0xE0#8).setWidth 32 <<< 13 |||
        (sidl &&& 0x03#8).setWidth 32 <<< 16 ||| eid8.setWidth 32 <<< 8 ||| eid0.setWidth 32)) ∧
      (sidl.getLsbD 3 = false → id = (sidh.setWidth 32 <<< 3 ||| (sidl &&& 0xE0#8).setWidth 32 >>> 5))

/-- Decode after encode gives the identifier and the flag back, for every identifier in its range
(42_arbitration_id_codec.md R123). -/
def Obligations.DecodeAfterEncodeIsIdentity : Prop :=
  (∀ id : Ident, id.toNat < 2 ^ 29 → imageId (encodeId id true) = id ∧ imageExt (encodeId id true) = true) ∧
  (∀ id : Ident, id.toNat < 2 ^ 11 → imageId (encodeId id false) = id ∧ imageExt (encodeId id false) = false)

/-- Encode after decode is the bytes with the ignored bits cleared: the identity exactly on the images ENC can produce; DEC is not
injective, ENC is not surjective, and ENC is injective on the valid ranges (42_arbitration_id_codec.md R124, the spec's own
derivation). -/
def Obligations.EncodeAfterDecodeClearsIgnoredBits : Prop :=
  (∀ img : IdImage, encodeId (imageId img) (imageExt img) =
    if img.sidl.getLsbD 3 then { img with sidl := img.sidl &&& 0xEB#8 }
    else { img with sidl := img.sidl &&& 0xE0#8, eid8 := 0#8, eid0 := 0#8 }) ∧
  (∀ img : IdImage, encodeId (imageId img) (imageExt img) = img ↔
    img.sidl.getLsbD 4 = false ∧ img.sidl.getLsbD 2 = false ∧
      (img.sidl.getLsbD 3 = false → img.sidl.extractLsb' 0 2 = 0#2 ∧ img.eid8 = 0#8 ∧ img.eid0 = 0#8)) ∧
  (∃ img img' : IdImage, img ≠ img' ∧ imageId img = imageId img' ∧ imageExt img = imageExt img') ∧
  (∃ img : IdImage, ∀ (id : Ident) (ext : Bool), encodeId id ext ≠ img) ∧
  (∀ (id id' : Ident) (ext ext' : Bool), idInRange id ext = true → idInRange id' ext' = true →
    encodeId id ext = encodeId id' ext' → id = id' ∧ ext = ext')

/-- An identifier out of range is truncated without an error (42_arbitration_id_codec.md R125; decision D13): ENC drops the high
bits, and DEC of the image gives the truncated identifier. -/
def Obligations.OversizeIdentifierIsTruncated : Prop :=
  ∀ id : Ident,
    encodeId id true = encodeId (id &&& 0x1FFFFFFF#32) true ∧
    encodeId id false = encodeId (id &&& 0x7FF#32) false ∧
    imageId (encodeId id true) = id &&& 0x1FFFFFFF#32 ∧
    imageId (encodeId id false) = id &&& 0x7FF#32

/-- Bit 3 of `sidl` alone chooses DEC's branch (42_arbitration_id_codec.md R126): whatever the other bits are, the flag answered is
that bit, and with it clear the bytes `eid8`, `eid0` and the other low bits of `sidl` do not reach the answer. -/
def Obligations.BitThreeOfSidlChoosesTheBranch : Prop :=
  ∀ (sidh sidl eid8 eid0 : Byte) (s : State), s.ras.phase = .idle →
    (∃ id, exec (.dec sidh sidl eid8 eid0) s = .next { s with responses := s.responses ++ [⟨.ok, .ident id (sidl.getLsbD 3)⟩] }) ∧
    (∀ sidl' eid8' eid0' : Byte, sidl.getLsbD 3 = false → sidl' &&& 0xE8#8 = sidl &&& 0xE8#8 →
      exec (.dec sidh sidl' eid8' eid0') s = exec (.dec sidh sidl eid8 eid0) s)

/-- The ranges of results (42_arbitration_id_codec.md R130, the spec's own derivation). -/
def Obligations.CodecResultRanges : Prop :=
  (∀ img : IdImage, (img.sidl.getLsbD 3 = true → (imageId img).toNat ≤ 0x1FFFFFFF) ∧
    (img.sidl.getLsbD 3 = false → (imageId img).toNat ≤ 0x7FF)) ∧
  (∀ id : Ident, (encodeId id true).sidl &&& 0x14#8 = 0#8 ∧ (encodeId id true).sidl &&& 0x08#8 = 0x08#8 ∧
    (encodeId id false).sidl &&& 0x1F#8 = 0#8 ∧ (encodeId id false).eid8 = 0#8 ∧ (encodeId id false).eid0 = 0#8)

/-- Same operands, same result, in any state of the RAS or the peripheral, and nothing is left behind
(42_arbitration_id_codec.md R131). -/
def Obligations.CodecIgnoresTheState : Prop :=
  ∀ (id : Ident) (ext : Bool) (sidh sidl eid8 eid0 : Byte) (i : Instr), (i = .enc id ext ∨ i = .dec sidh sidl eid8 eid0) →
    ∃ r : Response, r.code = .ok ∧ ∀ s : State, s.ras.phase = .idle →
      exec i s = .next { s with responses := s.responses ++ [r] }

/-! ## The buffer address multiplexer -/

/-- RES on the idle block (43_buffer_index.md R142): for a TX index up to 2 and an RX index up to 1 the block of the parameters'
table, CTRL for RX only, at SIDH - 1 or SIDH + 13; for every other index `Invalid`; nothing else changes. -/
def Obligations.ResResolvesTheBuffers : Prop :=
  ∀ (kind : Kind) (index : Byte) (s : State), s.ras.phase = .idle →
    (opcodeOf (encode (.res kind index)) = 0x31#8 ∧ (encode (.res kind index)).extractLsb' 9 31 = 0#31 ∧
      (encode (.res kind index)).getLsbD 8 = (kind == .rx) ∧ byteAt 0 (encode (.res kind index)) = index) ∧
    ∃ r : Response, exec (.res kind index) s = .next { s with responses := s.responses ++ [r] } ∧
      (kind = .tx → ∀ h : index.toNat < 3, r = ⟨.ok, .block ⟨s.params.txSidh[index.toNat], none⟩⟩) ∧
      (kind = .rx → ∀ h : index.toNat < 2, r = ⟨.ok, .block ⟨s.params.rxSidh[index.toNat],
        some (match s.params.rxCtrlPlace with
          | .below => s.params.rxSidh[index.toNat] - 1#8
          | .above => s.params.rxSidh[index.toNat] + 13#8)⟩⟩) ∧
      ((kind = .tx ∧ 3 ≤ index.toNat) ∨ (kind = .rx ∧ 2 ≤ index.toNat) → r = ⟨.invalid, .empty⟩)

/-- An out-of-range index never reaches the bus (43_buffer_index.md R143): RES, LOADFRAME and READFRAME return `Invalid` with no
transaction, no latch written and no memory changed. -/
def Obligations.InvalidIndexNeverReachesTheBus : Prop :=
  ∀ (kind : Kind) (index : Byte) (f : CanFrame) (s : State) (h : List HostInput), s.ras.phase = .idle →
    (kind = .tx → 3 ≤ index.toNat) → (kind = .rx → 2 ≤ index.toNat) →
    (∃ t, exec (.res kind index) s = .next t ∧ t.responses = s.responses ++ [⟨.invalid, .empty⟩] ∧
      t.trace = s.trace ∧ t.ras = s.ras ∧ t.mem = s.mem) ∧
    ((kind = .tx ∧ s.host = .loadFrame index f :: h) ∨ (kind = .rx ∧ s.host = .readFrame index :: h) →
      ∃ t, step s = .next t ∧ (∃ r ∈ t.results.getLast?, r.code = .invalid) ∧ t.trace = s.trace ∧ t.ras = s.ras ∧
        t.mem = s.mem ∧ t.host = h)

/-- With parameters that meet the constraints of 00_scope.md R6 (decision D10), no field address wraps and every one lies in the map
0x00 to 0x7D (43_buffer_index.md R141, R145, decision D9). -/
def Obligations.BlockAddressesStayInTheMap : Prop :=
  ∀ (p : Params) (kind : Kind) (index : Byte) (blk : RegisterBlock), p.wf = true → resolve p kind index = some blk →
    (∀ f : CommonField, (commonAddr blk f).toNat = blk.sidhAddr.toNat + f.offset.toNat ∧ (commonAddr blk f).toNat ≤ 0x7D) ∧
    (∀ c ∈ blk.ctrlAddr, c.toNat ≤ 0x7D ∧ (c.toNat + 1 = blk.sidhAddr.toNat ∨ c.toNat = blk.sidhAddr.toNat + 13))

/-- With such parameters, two names of registers in the five blocks that stand for one address are the same name
(00_scope.md R6, decision D10). -/
def Obligations.BufferRegistersAreDistinct : Prop :=
  ∀ (p : Params) (k k' : Kind) (n n' : Byte) (f f' : Field) (a : Byte), p.wf = true →
    AddrOperand.eval p (.field k n f) = some a → AddrOperand.eval p (.field k' n' f') = some a → k = k' ∧ n = n' ∧ f = f'

/-! ## The client sequences -/

/-- The DLC byte (30_encoding.md R74): bits 7, 5, 4 are 0, bit 6 is the remote flag, bits 3:0 are the length modulo 16; on read only
bits 3:0 count. -/
def Obligations.DlcByteLayout : Prop :=
  ∀ (f : CanFrame) (v : Byte),
    (dlcByte f).getLsbD 7 = false ∧ (dlcByte f).getLsbD 6 = f.isRemoteFrame ∧ (dlcByte f).extractLsb' 4 2 = 0#2 ∧
    ((dlcByte f).extractLsb' 0 4).toNat = f.dataLength % 16 ∧ dlcLength v = (v.extractLsb' 0 4).toNat

/-- The mode field is bits 7:5 of a register byte, both ways (30_encoding.md R75). -/
def Obligations.ModeFieldLayout : Prop :=
  ∀ (c : BitVec 3) (b : Byte),
    modeField (modeValue c) = c ∧ modeValue c &&& 0x1F#8 = 0#8 ∧ (modeField b).setWidth 8 = b >>> 5

/-- SWMODE (44_client_sequences.md R161, with its result as R162 says): the bit-modify of CONTROL with its read-back, then the read
of STATUS, whatever the outcome; `Fail` when STATUS does not show the code, `Ok` when it does and the read-back was good, and one of
the two when only the read-back was not (the spec's decision D20; log entry 7). -/
def Obligations.SwmodeSequence : Prop :=
  ∀ (mode : Mode) (s : State) (h : List HostInput), s.ras.phase = .idle → s.host = .swmode mode :: h →
    ∃ (c st value : Byte) (code : ResultCode) (t : State), step s = .next t ∧
      value = (s.params.modeCode mode).setWidth 8 <<< 5 ∧
      t.trace = s.trace ++ [⟨s.params.instrBitmod, some s.params.addrControl, [0xE0#8, value], []⟩,
        ⟨s.params.instrRead, some s.params.addrControl, [], [c]⟩, ⟨s.params.instrRead, some s.params.addrStatus, [], [st]⟩] ∧
      t.results = s.results ++ [⟨code, none⟩] ∧
      (st.extractLsb' 5 3 ≠ s.params.modeCode mode → code = .fail) ∧
      (st.extractLsb' 5 3 = s.params.modeCode mode → c &&& 0xE0#8 = value &&& 0xE0#8 → code = .ok) ∧
      (code = .ok ∨ code = .fail) ∧
      t.host = h ∧ t.ras.phase = .idle ∧ t.params = s.params ∧ t.pulses = s.pulses

/-- RESET (44_client_sequences.md R163, the two variants a parameter by decision D23; what it does to the peripheral is environment,
00_scope.md R5): one T-RESET in the
instruction variant, no transaction and one pulse asked for in the pin variant; always `Ok`; the latches are left alone. -/
def Obligations.ResetSequence : Prop :=
  ∀ (s : State) (h : List HostInput), s.ras.phase = .idle → s.host = .reset :: h →
    ∃ t, step s = .next t ∧ t.results = s.results ++ [⟨.ok, none⟩] ∧ t.ras = s.ras ∧ t.responses = s.responses ∧
      t.mem = s.mem ∧ t.host = h ∧
      (s.params.resetVariant = .instruction →
        t.trace = s.trace ++ [⟨s.params.instrReset, none, [], []⟩] ∧ t.pulses = s.pulses) ∧
      (s.params.resetVariant = .pin → t.trace = s.trace ∧ t.pulses = s.pulses + 1)

/-- LOADFRAME with a valid index (44_client_sequences.md R164): the thirteen verified writes in the rule's order, each a T-WRITE and a
T-READ, none skipped (the order of the identifier registers and that none is skipped are the spec's decision D18); `Fail` if any
read-back differs, else `Ok`. `rbs` are the bytes the bus returned. -/
def Obligations.LoadFrameWritesThirteenRegisters : Prop :=
  ∀ (index : Byte) (f : CanFrame) (s : State) (h : List HostInput) (S : Byte),
    s.ras.phase = .idle → s.host = .loadFrame index f :: h → s.params.txSidh[index.toNat]? = some S →
    ∃ (img : IdImage) (writes : List (Byte × Byte)) (rbs : List Byte) (t : State),
      img = encodeId f.id f.isExtended ∧
      writes = [(S, img.sidh), (S + 1#8, img.sidl), (S + 2#8, img.eid8), (S + 3#8, img.eid0),
        (S + 4#8, BitVec.ofNat 8 (f.dataLength % 16) ||| if f.isRemoteFrame then 0x40#8 else 0#8)] ++
        (List.finRange 8).map (fun i => (S + BitVec.ofNat 8 (5 + i.val), if i.val < f.dataLength then f.data[i] else 0#8)) ∧
      rbs.length = 13 ∧ step s = .next t ∧
      t.trace = s.trace ++ (writes.zip rbs).flatMap (fun x => [⟨s.params.instrWrite, some x.1.1, [x.1.2], []⟩,
        ⟨s.params.instrRead, some x.1.1, [], [x.2]⟩]) ∧
      t.results = s.results ++ [⟨if ∀ x ∈ writes.zip rbs, x.2 = x.1.2 then .ok else .fail, none⟩] ∧
      t.host = h ∧ t.ras.phase = .idle ∧ t.params = s.params

/-- READFRAME with a valid index (44_client_sequences.md R167): CTRL, the four identifier registers, DLC, the data registers below
the length (at most eight), then the flag clear with the buffer's mask and value 0x00 and its read-back, whose result is dropped; the
frame is built from the bytes read, zero at and beyond the length, and the result is `Ok`. The order of the identifier reads and the
value byte 0x00 are the spec's decision D19. -/
def Obligations.ReadFrameReadsTheBuffer : Prop :=
  ∀ (index : Byte) (s : State) (h : List HostInput) (S m : Byte),
    s.ras.phase = .idle → s.host = .readFrame index :: h → s.params.rxSidh[index.toNat]? = some S →
    s.params.rxPendingMask[index.toNat]? = some m →
    ∃ (C ctrl b0 b1 b2 b3 dlc rb : Byte) (len : Nat) (data : List Byte) (frame : CanFrame) (t : State),
      C = (match s.params.rxCtrlPlace with | .below => S - 1#8 | .above => S + 13#8) ∧
      len = (dlc &&& 0x0F#8).toNat ∧ data.length = min len 8 ∧ step s = .next t ∧
      t.trace = s.trace ++
        [tRead s.params C ctrl, tRead s.params S b0, tRead s.params (S + 1#8) b1, tRead s.params (S + 2#8) b2,
          tRead s.params (S + 3#8) b3, tRead s.params (S + 4#8) dlc] ++
        (((List.range 8).map fun k => S + BitVec.ofNat 8 (5 + k)).zip data).map (fun x => tRead s.params x.1 x.2) ++
        [tBitmod s.params s.params.addrIntflag m 0x00#8, tRead s.params s.params.addrIntflag rb] ∧
      t.results = s.results ++ [⟨.ok, some frame⟩] ∧
      frame.id = imageId ⟨b0, b1, b2, b3⟩ ∧ frame.isExtended = b1.getLsbD 3 ∧
      frame.isRemoteFrame = (ctrl &&& s.params.rxRemoteMask != 0#8) ∧ frame.dataLength = len ∧
      (∀ i : Fin 8, frame.data[i] = data.getD i.val 0#8) ∧
      t.host = h ∧ t.ras.phase = .idle ∧ t.params = s.params

/-- REQTX with a flag set (44_client_sequences.md R170): exactly one transaction, whose one byte is the OR of the set flags' bytes;
always `Ok`; the latches are left alone. -/
def Obligations.ReqTxSendsOneByte : Prop :=
  ∀ (tx0 tx1 tx2 : Bool) (s : State) (h : List HostInput), s.ras.phase = .idle → s.host = .reqTx tx0 tx1 tx2 :: h →
    (tx0 || tx1 || tx2) = true →
    ∃ t, step s = .next t ∧
      t.trace = s.trace ++ [⟨(if tx0 then s.params.instrRts[0] else 0#8) ||| (if tx1 then s.params.instrRts[1] else 0#8) |||
        (if tx2 then s.params.instrRts[2] else 0#8), none, [], []⟩] ∧
      t.results = s.results ++ [⟨.ok, none⟩] ∧ t.ras = s.ras ∧ t.responses = s.responses ∧ t.mem = s.mem ∧ t.host = h

/-- The request-to-send bytes are independent flags (00_scope.md R6, 30_encoding.md R78): with parameters that meet the constraints, the
OR tells which buffers were asked for. How "single-bit" allows bits that all three share is the model's reading (DEDUCED, log entry 21). -/
def Obligations.RtsByteTellsTheFlags : Prop :=
  ∀ (p : Params) (a b c a' b' c' : Bool), p.wf = true → rtsByte p a b c = rtsByte p a' b' c' → a = a' ∧ b = b' ∧ c = c'

/-- REQTX with no flag is refused by the model (44_client_sequences.md R171, "A model refuses"; decision D21). -/
def Obligations.ReqTxWithoutFlagIsRefused : Prop :=
  ∀ (s : State) (h : List HostInput), s.ras.phase = .idle → s.host = .reqTx false false false :: h →
    step s = .refused .reqTxNoFlag

/-- Which bytes of the ideal peripheral's memory a client sequence can change (44_client_sequences.md R161, R164, R167, R163, R170;
20_memory.md R53, decision D16): SWMODE only CONTROL, LOADFRAME only its block's thirteen registers, READFRAME only INTFLAG, RESET
and REQTX none; under the oracle none of them any. -/
def Obligations.ClientSequencesMemoryFrame : Prop :=
  ∀ (s t : State) (m : HostInput) (h : List HostInput), s.ras.phase = .idle → s.host = m :: h → step s = .next t →
    (∀ mode, m = .swmode mode → sameMemoryBut s.params.addrControl s t) ∧
    (∀ index f S, m = .loadFrame index f → s.params.txSidh[index.toNat]? = some S →
      ∀ x, (∀ k : Nat, k ≤ 12 → x ≠ (S + BitVec.ofNat 8 k).toNat) → Memory.read t.mem x = Memory.read s.mem x) ∧
    (∀ index, m = .readFrame index → sameMemoryBut s.params.addrIntflag s t) ∧
    (m = .reset → t.mem = s.mem) ∧
    (∀ tx0 tx1 tx2, m = .reqTx tx0 tx1 tx2 → t.mem = s.mem) ∧
    (s.periph = .oracle → t.mem = s.mem)

/-! ## The whole machine -/

/-- The state right after reset: idle and ready, the trace empty, nothing answered; the presumed parameters (log entry 2) meet R6
(10_state.md R19, R25, and 70_reset_and_hazards.md R211, the spec's decision D6). The other fields are the model's choices (log entries 1 to 6) and are not stated. -/
def Obligations.ResetIsIdleAndReady : Prop :=
  State.reset.ras.phase = .idle ∧ State.reset.cmdReady = true ∧ State.reset.trace = [] ∧ State.reset.params.wf = true

/-- The invariant holds right after reset. Beside what 10_state.md R19 gives (the phase, the empty trace) this rests on the model's own
reset values: nothing answered yet (log entry 3, DESIGN CHOICE) and nothing listed in the ideal peripheral's memory (log entry 6,
DESIGN CHOICE). -/
def Obligations.ResetMeetsTheInvariant : Prop :=
  State.reset.inv = true

/-- Every step keeps the invariant: legal latches; before a verifying read the last transaction is the operation's own write or
bit-modify; every transaction has one of the five formats; data comes with `Ok` only; a frame returned is as READFRAME builds it; the
memory is canonical (10_state.md R12, R13; 30_encoding.md R77, R83; 41_register_access.md R102, R104, R111). -/
def Obligations.EveryStepKeepsTheInvariant : Prop :=
  ∀ s t : State, s.inv = true → step s = .next t → t.inv = true

/-- In a state that meets the invariant no step faults: "The block has no fault of its own" (60_exceptions.md R205). -/
def Obligations.InvariantStatesNeverFault : Prop :=
  ∀ (s : State) (r : Fault), s.inv = true → step s ≠ .fault r

/-- In a state that meets the invariant the only steps refused are a name that stands for no register (43_buffer_index.md R145, the
spec's derivation; for a buffer that does not exist log entry 19, DEDUCED) and REQTX with no flag (44_client_sequences.md R171, decision
D21). That there is no third rests on the model's choice in log entry 12 (DESIGN CHOICE): 60_exceptions.md R205 calls `Refused` a refusal,
and the model answers an undefined command by a step whose response is `Refused` (30_encoding.md R85). -/
def Obligations.OnlyTwoRefusalsInARun : Prop :=
  ∀ (s : State) (r : Refusal), s.inv = true → step s = .refused r →
    (r = .undefinedAddress ∧ ∃ l h, s.host = .line l :: h ∧ l.assemble s.params = none) ∨
    (r = .reqTxNoFlag ∧ ∃ h, s.host = .reqTx false false false :: h)

/-- Every operation and sequence, the codes it can return and what each is computed from (60_exceptions.md R192, row by row). `rs` are
the responses of the operations LOADFRAME is made of, RES and ENC among them, which are `Ok` there. -/
def Obligations.ResultCodeTable : Prop :=
  ∀ (s t : State) (h : List HostInput), s.ras.phase = .idle →
    (∀ addr, exec (.rdr addr) s = .next t → ∃ d, t.responses = s.responses ++ [⟨.ok, d⟩]) ∧
    (∀ addr value, exec (.wrv addr value) s = .next t →
      t.responses = s.responses ++ [⟨if t.ras.rb = value then .ok else .fail, .empty⟩]) ∧
    (∀ addr mask value, exec (.mbv addr mask value) s = .next t →
      t.responses = s.responses ++ [⟨if t.ras.rb &&& mask = value &&& mask then .ok else .fail, .empty⟩]) ∧
    (∀ id ext, exec (.enc id ext) s = .next t → ∃ d, t.responses = s.responses ++ [⟨.ok, d⟩]) ∧
    (∀ sidh sidl eid8 eid0, exec (.dec sidh sidl eid8 eid0) s = .next t → ∃ d, t.responses = s.responses ++ [⟨.ok, d⟩]) ∧
    (∀ index, exec (.res .tx index) s = .next t →
      ∃ d, t.responses = s.responses ++ [⟨if index.toNat ≤ 2 then .ok else .invalid, d⟩]) ∧
    (∀ index, exec (.res .rx index) s = .next t →
      ∃ d, t.responses = s.responses ++ [⟨if index.toNat ≤ 1 then .ok else .invalid, d⟩]) ∧
    (∀ mode, s.host = .swmode mode :: h → step s = .next t →
      ∃ (code : ResultCode) (status : Byte), t.results = s.results ++ [⟨code, none⟩] ∧
        t.trace.getLast? = some (tRead s.params s.params.addrStatus status) ∧ (code = .ok ∨ code = .fail) ∧
        (code = .ok → status.extractLsb' 5 3 = s.params.modeCode mode)) ∧
    (s.host = .reset :: h → step s = .next t → t.results = s.results ++ [⟨.ok, none⟩]) ∧
    (∀ index f, s.host = .loadFrame index f :: h → step s = .next t →
      ∃ (code : ResultCode) (rs : List Response), t.results = s.results ++ [⟨code, none⟩] ∧ t.responses = s.responses ++ rs ∧
        (index.toNat ≤ 2 → code = if ∀ r ∈ rs, r.code = .ok then .ok else .fail) ∧ (2 < index.toNat → code = .invalid)) ∧
    (∀ index, s.host = .readFrame index :: h → step s = .next t →
      ∃ frame, t.results = s.results ++ [⟨if index.toNat ≤ 1 then .ok else .invalid, frame⟩]) ∧
    (∀ tx0 tx1 tx2, s.host = .reqTx tx0 tx1 tx2 :: h → step s = .next t → t.results = s.results ++ [⟨.ok, none⟩]) ∧
    (∀ w why, (s.host = .command w :: h ∨ s.host = .present w :: h) → decode w = .reject why → step s = .next t →
      t.responses = s.responses ++ [⟨.refused, .empty⟩])

/-- `Refused` is returned for nothing but an undefined command (60_exceptions.md R203; decision D4); that an undefined command is answered
so is `UndefinedCommandIsRefused`. -/
def Obligations.RefusedOnlyForUndefinedCommands : Prop :=
  ∀ (s t : State) (rs : List Response), step s = .next t → t.responses = s.responses ++ rs →
    (∃ r ∈ rs, r.code = .refused) →
    ∃ (w : CmdWord) (h : List HostInput) (why : Reject),
      (s.host = .command w :: h ∨ s.host = .present w :: h) ∧ decode w = .reject why

/-- Nothing removes an entry of the bus trace, and no answer is taken back (10_state.md R25, decision D25; 60_exceptions.md R190). -/
def Obligations.HistoryOnlyGrows : Prop :=
  ∀ s t : State, step s = .next t → s.trace <+: t.trace ∧ s.responses <+: t.responses ∧ s.results <+: t.results

/-- No step writes a parameter (10_state.md R10, R18; 43_buffer_index.md R146). -/
def Obligations.ParametersAreNeverWritten : Prop :=
  ∀ s t : State, step s = .next t → t.params = s.params

/-- Only the acceptance of RDR, WRV or MBV makes the idle block busy (41_register_access.md R104, decision D5): every other step of
the idle block leaves it idle. -/
def Obligations.OnlyAcceptanceMakesTheBlockBusy : Prop :=
  ∀ s t : State, s.ras.phase = .idle → step s = .next t → t.ras.phase ≠ .idle →
    ∃ (w : CmdWord) (h : List HostInput) (a m v : Byte), s.host = .present w :: h ∧ t.ras.phase = .primary ∧
      (decode w = .instr (.rdr a) ∨ decode w = .instr (.wrv a v) ∨ decode w = .instr (.mbv a m v))

/-- How many transactions one block step or client sequence adds (41_register_access.md R108; 44_client_sequences.md R172, the
spec's own derivation). -/
def Obligations.TransactionCounts : Prop :=
  ∀ (s t : State) (m : HostInput) (h : List HostInput), s.ras.phase = .idle → s.host = m :: h → step s = .next t →
    (∀ mode, m = .swmode mode → t.trace.length = s.trace.length + 3) ∧
    (m = .reset → t.trace.length = s.trace.length + (if s.params.resetVariant = .instruction then 1 else 0)) ∧
    (∀ index f, m = .loadFrame index f → t.trace.length = s.trace.length + (if index.toNat < 3 then 26 else 0)) ∧
    (∀ index, m = .readFrame index → index.toNat < 2 → ∃ frame, t.results = s.results ++ [⟨.ok, some frame⟩] ∧
      t.trace.length = s.trace.length + 8 + min frame.dataLength 8) ∧
    (∀ index, m = .readFrame index → 2 ≤ index.toNat → t.trace.length = s.trace.length) ∧
    (∀ tx0 tx1 tx2, m = .reqTx tx0 tx1 tx2 → t.trace.length = s.trace.length + 1) ∧
    (∀ w, m = .present w → t.trace.length = s.trace.length) ∧
    (∀ w i, m = .command w → decode w = .instr i → t.trace.length = s.trace.length +
      (match i with | .rdr _ => 1 | .wrv _ _ => 2 | .mbv _ _ _ => 2 | .enc _ _ => 0 | .dec _ _ _ _ => 0 | .res _ _ => 0))
end

