-- ==== Sys2Proof/Laws/Memory.lean ====
section
/-! SUPPORT. The laws of the ideal peripheral's memory (20_memory.md R53): a read after a write, and that every write keeps the
canonical form. -/

namespace Sys2Proof.Machine

theorem Memory.wf_nil : Memory.wf [] = true := by decide

theorem Memory.wf_cons {c : Host.Cell} {m : Memory} :
    Memory.wf (c :: m) = true ↔
      (∀ d ∈ m, c.1 < d.1) ∧ (c.1 < 256 ∧ c.2 ≠ Memory.unlisted) ∧ Memory.wf m = true := by
  simp only [Memory.wf, List.pairwise_cons, List.all_cons, Bool.and_eq_true, decide_eq_true_eq, bne_iff_ne]
  tauto

/-- An address below every listed one is unlisted. -/
theorem Memory.read_below {m : Memory} {a : Nat} (h : ∀ d ∈ m, a < d.1) : Memory.read m a = Memory.unlisted := by
  induction m with
  | nil => rfl
  | cons c m ih =>
    have hc := h c (by simp)
    simp only [Memory.read, if_neg (show ¬ c.1 = a by omega)]
    exact ih fun d hd => h d (by simp [hd])

theorem Memory.read_write_same {m : Memory} (hm : Memory.wf m = true) (a : Nat) (v : Byte) :
    Memory.read (Memory.write m a v) a = v := by
  induction m with
  | nil =>
    by_cases hv : v = Memory.unlisted <;> simp [Memory.write, Memory.read, hv]
  | cons c m ih =>
    obtain ⟨hlt, -, hw⟩ := Memory.wf_cons.1 hm
    have below (h : a ≤ c.1) : ∀ d ∈ m, a < d.1 := fun d hd => lt_of_le_of_lt h (hlt d hd)
    by_cases h1 : c.1 < a
    · have hne : c.1 ≠ a := by omega
      simp [Memory.write, h1, Memory.read, hne, ih hw]
    · by_cases h2 : c.1 = a
      · by_cases hv : v = Memory.unlisted
        · simp only [Memory.write, if_neg h1, if_pos h2, if_pos hv]
          rw [Memory.read_below (below (by omega)), hv]
        · simp [Memory.write, h2, hv, Memory.read]
      · by_cases hv : v = Memory.unlisted
        · simp only [Memory.write, if_neg h1, if_neg h2, if_pos hv, Memory.read]
          rw [Memory.read_below (below (by omega)), hv]
        · simp [Memory.write, h1, h2, hv, Memory.read]

theorem Memory.read_write_other {m : Memory} {a b : Nat} (hab : b ≠ a) (v : Byte) :
    Memory.read (Memory.write m a v) b = Memory.read m b := by
  have hab' : a ≠ b := hab.symm
  induction m with
  | nil => by_cases hv : v = Memory.unlisted <;> simp [Memory.write, Memory.read, hv, hab']
  | cons c m ih =>
    by_cases h1 : c.1 < a
    · simp [Memory.write, h1, Memory.read, ih]
    · by_cases h2 : c.1 = a
      · have : c.1 ≠ b := by omega
        by_cases hv : v = Memory.unlisted <;> simp [Memory.write, h2, hv, Memory.read, hab']
      · by_cases hv : v = Memory.unlisted <;> simp [Memory.write, h1, h2, hv, Memory.read, hab']

/-- Every listed address of a written memory is the address written or was listed before. -/
theorem Memory.mem_write {m : Memory} {a : Nat} {v : Byte} {d : Host.Cell} (h : d ∈ Memory.write m a v) :
    d = (a, v) ∨ d ∈ m := by
  induction m with
  | nil =>
    by_cases hv : v = Memory.unlisted <;> simp [Memory.write, hv] at h
    exact .inl h
  | cons c m ih =>
    by_cases h1 : c.1 < a
    · simp only [Memory.write, if_pos h1, List.mem_cons] at h ⊢
      rcases h with h | h
      · exact .inr (.inl h)
      · exact (ih h).imp_right .inr
    · by_cases h2 : c.1 = a <;> by_cases hv : v = Memory.unlisted <;>
        simp [Memory.write, h1, h2, hv] at h ⊢ <;> tauto

theorem Memory.wf_write {m : Memory} (hm : Memory.wf m = true) {a : Nat} (ha : a < 256) (v : Byte) :
    Memory.wf (Memory.write m a v) = true := by
  induction m with
  | nil =>
    by_cases hv : v = Memory.unlisted
    · simp [Memory.write, hv, Memory.wf_nil]
    · simp only [Memory.write, if_neg hv]
      exact Memory.wf_cons.2 ⟨by simp, ⟨ha, hv⟩, Memory.wf_nil⟩
  | cons c m ih =>
    obtain ⟨hlt, hc, hw⟩ := Memory.wf_cons.1 hm
    by_cases h1 : c.1 < a
    · simp only [Memory.write, if_pos h1]
      refine Memory.wf_cons.2 ⟨fun d hd => ?_, hc, ih hw⟩
      rcases Memory.mem_write hd with rfl | hd
      · exact h1
      · exact hlt d hd
    · by_cases h2 : c.1 = a
      · by_cases hv : v = Memory.unlisted
        · simpa only [Memory.write, if_neg h1, if_pos h2, if_pos hv] using hw
        · simp only [Memory.write, if_neg h1, if_pos h2, if_neg hv]
          exact Memory.wf_cons.2 ⟨fun d hd => h2 ▸ hlt d hd, ⟨ha, hv⟩, hw⟩
      · by_cases hv : v = Memory.unlisted
        · simpa only [Memory.write, if_neg h1, if_neg h2, if_pos hv] using hm
        · simp only [Memory.write, if_neg h1, if_neg h2, if_neg hv]
          refine Memory.wf_cons.2 ⟨fun d hd => ?_, ⟨ha, hv⟩, hm⟩
          rcases List.mem_cons.1 hd with rfl | hd
          · show a < d.1; omega
          · have := hlt d hd; show a < d.1; omega

end Sys2Proof.Machine
end

