-- ==== Sys2Proof/Laws/State.lean ====
section
/-! SUPPORT. One lemma per field per update of the state, each true by unfolding the one update, so that no proof unfolds a record
update. -/

namespace Sys2Proof.Machine

variable (s : State)

@[simp] theorem State.setRas_params (r : Ras) : (s.setRas r).params = s.params := rfl
@[simp] theorem State.setRas_ras (r : Ras) : (s.setRas r).ras = r := rfl
@[simp] theorem State.setRas_trace (r : Ras) : (s.setRas r).trace = s.trace := rfl
@[simp] theorem State.setRas_responses (r : Ras) : (s.setRas r).responses = s.responses := rfl
@[simp] theorem State.setRas_results (r : Ras) : (s.setRas r).results = s.results := rfl
@[simp] theorem State.setRas_pulses (r : Ras) : (s.setRas r).pulses = s.pulses := rfl
@[simp] theorem State.setRas_host (r : Ras) : (s.setRas r).host = s.host := rfl
@[simp] theorem State.setRas_periph (r : Ras) : (s.setRas r).periph = s.periph := rfl
@[simp] theorem State.setRas_script (r : Ras) : (s.setRas r).script = s.script := rfl
@[simp] theorem State.setRas_draws (r : Ras) : (s.setRas r).draws = s.draws := rfl
@[simp] theorem State.setRas_mem (r : Ras) : (s.setRas r).mem = s.mem := rfl

@[simp] theorem State.log_params (e : Transaction) : (s.log e).params = s.params := rfl
@[simp] theorem State.log_ras (e : Transaction) : (s.log e).ras = s.ras := rfl
@[simp] theorem State.log_trace (e : Transaction) : (s.log e).trace = s.trace ++ [e] := rfl
@[simp] theorem State.log_responses (e : Transaction) : (s.log e).responses = s.responses := rfl
@[simp] theorem State.log_results (e : Transaction) : (s.log e).results = s.results := rfl
@[simp] theorem State.log_pulses (e : Transaction) : (s.log e).pulses = s.pulses := rfl
@[simp] theorem State.log_host (e : Transaction) : (s.log e).host = s.host := rfl
@[simp] theorem State.log_periph (e : Transaction) : (s.log e).periph = s.periph := rfl
@[simp] theorem State.log_script (e : Transaction) : (s.log e).script = s.script := rfl
@[simp] theorem State.log_draws (e : Transaction) : (s.log e).draws = s.draws := rfl
@[simp] theorem State.log_mem (e : Transaction) : (s.log e).mem = s.mem := rfl

@[simp] theorem State.respond_params (r : Response) : (s.respond r).params = s.params := rfl
@[simp] theorem State.respond_ras (r : Response) : (s.respond r).ras = s.ras := rfl
@[simp] theorem State.respond_trace (r : Response) : (s.respond r).trace = s.trace := rfl
@[simp] theorem State.respond_responses (r : Response) : (s.respond r).responses = s.responses ++ [r] := rfl
@[simp] theorem State.respond_results (r : Response) : (s.respond r).results = s.results := rfl
@[simp] theorem State.respond_pulses (r : Response) : (s.respond r).pulses = s.pulses := rfl
@[simp] theorem State.respond_host (r : Response) : (s.respond r).host = s.host := rfl
@[simp] theorem State.respond_periph (r : Response) : (s.respond r).periph = s.periph := rfl
@[simp] theorem State.respond_script (r : Response) : (s.respond r).script = s.script := rfl
@[simp] theorem State.respond_draws (r : Response) : (s.respond r).draws = s.draws := rfl
@[simp] theorem State.respond_mem (r : Response) : (s.respond r).mem = s.mem := rfl

@[simp] theorem State.finish_params (r : ClientResult) : (s.finish r).params = s.params := rfl
@[simp] theorem State.finish_ras (r : ClientResult) : (s.finish r).ras = s.ras := rfl
@[simp] theorem State.finish_trace (r : ClientResult) : (s.finish r).trace = s.trace := rfl
@[simp] theorem State.finish_responses (r : ClientResult) : (s.finish r).responses = s.responses := rfl
@[simp] theorem State.finish_results (r : ClientResult) : (s.finish r).results = s.results ++ [r] := rfl
@[simp] theorem State.finish_pulses (r : ClientResult) : (s.finish r).pulses = s.pulses := rfl
@[simp] theorem State.finish_host (r : ClientResult) : (s.finish r).host = s.host := rfl
@[simp] theorem State.finish_periph (r : ClientResult) : (s.finish r).periph = s.periph := rfl
@[simp] theorem State.finish_script (r : ClientResult) : (s.finish r).script = s.script := rfl
@[simp] theorem State.finish_draws (r : ClientResult) : (s.finish r).draws = s.draws := rfl
@[simp] theorem State.finish_mem (r : ClientResult) : (s.finish r).mem = s.mem := rfl

@[simp] theorem State.drew_params : (s.drew).params = s.params := rfl
@[simp] theorem State.drew_ras : (s.drew).ras = s.ras := rfl
@[simp] theorem State.drew_trace : (s.drew).trace = s.trace := rfl
@[simp] theorem State.drew_responses : (s.drew).responses = s.responses := rfl
@[simp] theorem State.drew_results : (s.drew).results = s.results := rfl
@[simp] theorem State.drew_pulses : (s.drew).pulses = s.pulses := rfl
@[simp] theorem State.drew_host : (s.drew).host = s.host := rfl
@[simp] theorem State.drew_periph : (s.drew).periph = s.periph := rfl
@[simp] theorem State.drew_script : (s.drew).script = s.script := rfl
@[simp] theorem State.drew_draws : (s.drew).draws = s.draws + 1 := rfl
@[simp] theorem State.drew_mem : (s.drew).mem = s.mem := rfl

@[simp] theorem State.withHost_params (h : List HostInput) : (s.withHost h).params = s.params := rfl
@[simp] theorem State.withHost_ras (h : List HostInput) : (s.withHost h).ras = s.ras := rfl
@[simp] theorem State.withHost_trace (h : List HostInput) : (s.withHost h).trace = s.trace := rfl
@[simp] theorem State.withHost_responses (h : List HostInput) : (s.withHost h).responses = s.responses := rfl
@[simp] theorem State.withHost_results (h : List HostInput) : (s.withHost h).results = s.results := rfl
@[simp] theorem State.withHost_pulses (h : List HostInput) : (s.withHost h).pulses = s.pulses := rfl
@[simp] theorem State.withHost_host (h : List HostInput) : (s.withHost h).host = h := rfl
@[simp] theorem State.withHost_periph (h : List HostInput) : (s.withHost h).periph = s.periph := rfl
@[simp] theorem State.withHost_script (h : List HostInput) : (s.withHost h).script = s.script := rfl
@[simp] theorem State.withHost_draws (h : List HostInput) : (s.withHost h).draws = s.draws := rfl
@[simp] theorem State.withHost_mem (h : List HostInput) : (s.withHost h).mem = s.mem := rfl

@[simp] theorem State.setMem_params (m : Memory) : (s.setMem m).params = s.params := rfl
@[simp] theorem State.setMem_ras (m : Memory) : (s.setMem m).ras = s.ras := rfl
@[simp] theorem State.setMem_trace (m : Memory) : (s.setMem m).trace = s.trace := rfl
@[simp] theorem State.setMem_responses (m : Memory) : (s.setMem m).responses = s.responses := rfl
@[simp] theorem State.setMem_results (m : Memory) : (s.setMem m).results = s.results := rfl
@[simp] theorem State.setMem_pulses (m : Memory) : (s.setMem m).pulses = s.pulses := rfl
@[simp] theorem State.setMem_host (m : Memory) : (s.setMem m).host = s.host := rfl
@[simp] theorem State.setMem_periph (m : Memory) : (s.setMem m).periph = s.periph := rfl
@[simp] theorem State.setMem_script (m : Memory) : (s.setMem m).script = s.script := rfl
@[simp] theorem State.setMem_draws (m : Memory) : (s.setMem m).draws = s.draws := rfl
@[simp] theorem State.setMem_mem (m : Memory) : (s.setMem m).mem = m := rfl

@[simp] theorem State.afterRead_params : s.afterRead.params = s.params := by unfold State.afterRead; split <;> rfl
@[simp] theorem State.afterRead_ras : s.afterRead.ras = s.ras := by unfold State.afterRead; split <;> rfl
@[simp] theorem State.afterRead_trace : s.afterRead.trace = s.trace := by unfold State.afterRead; split <;> rfl
@[simp] theorem State.afterRead_responses : s.afterRead.responses = s.responses := by unfold State.afterRead; split <;> rfl
@[simp] theorem State.afterRead_results : s.afterRead.results = s.results := by unfold State.afterRead; split <;> rfl
@[simp] theorem State.afterRead_pulses : s.afterRead.pulses = s.pulses := by unfold State.afterRead; split <;> rfl
@[simp] theorem State.afterRead_host : s.afterRead.host = s.host := by unfold State.afterRead; split <;> rfl
@[simp] theorem State.afterRead_periph : s.afterRead.periph = s.periph := by unfold State.afterRead; split <;> rfl
@[simp] theorem State.afterRead_mem : s.afterRead.mem = s.mem := by unfold State.afterRead; split <;> rfl

@[simp] theorem State.periphWrite_params (a v : Byte) : (s.periphWrite a v).params = s.params := by
  unfold State.periphWrite; split <;> rfl
@[simp] theorem State.periphWrite_ras (a v : Byte) : (s.periphWrite a v).ras = s.ras := by
  unfold State.periphWrite; split <;> rfl
@[simp] theorem State.periphWrite_trace (a v : Byte) : (s.periphWrite a v).trace = s.trace := by
  unfold State.periphWrite; split <;> rfl
@[simp] theorem State.periphWrite_responses (a v : Byte) : (s.periphWrite a v).responses = s.responses := by
  unfold State.periphWrite; split <;> rfl
@[simp] theorem State.periphWrite_results (a v : Byte) : (s.periphWrite a v).results = s.results := by
  unfold State.periphWrite; split <;> rfl
@[simp] theorem State.periphWrite_pulses (a v : Byte) : (s.periphWrite a v).pulses = s.pulses := by
  unfold State.periphWrite; split <;> rfl
@[simp] theorem State.periphWrite_host (a v : Byte) : (s.periphWrite a v).host = s.host := by
  unfold State.periphWrite; split <;> rfl
@[simp] theorem State.periphWrite_periph (a v : Byte) : (s.periphWrite a v).periph = s.periph := by
  unfold State.periphWrite; split <;> rfl
@[simp] theorem State.periphWrite_script (a v : Byte) : (s.periphWrite a v).script = s.script := by
  unfold State.periphWrite; split <;> rfl
@[simp] theorem State.periphWrite_draws (a v : Byte) : (s.periphWrite a v).draws = s.draws := by
  unfold State.periphWrite; split <;> rfl

@[simp] theorem State.busAnswer_setRas (r : Ras) (a : Byte) : (s.setRas r).busAnswer a = s.busAnswer a := rfl
@[simp] theorem State.busAnswer_log (e : Transaction) (a : Byte) : (s.log e).busAnswer a = s.busAnswer a := rfl
@[simp] theorem State.busAnswer_respond (r : Response) (a : Byte) : (s.respond r).busAnswer a = s.busAnswer a := rfl
@[simp] theorem State.busAnswer_finish (r : ClientResult) (a : Byte) : (s.finish r).busAnswer a = s.busAnswer a := rfl
@[simp] theorem State.busAnswer_withHost (h : List HostInput) (a : Byte) : (s.withHost h).busAnswer a = s.busAnswer a := rfl

theorem State.afterRead_oracle {s : State} (h : s.periph = .oracle) :
    s.afterRead.script = s.script.tail ∧ s.afterRead.draws = s.draws + 1 := by
  unfold State.afterRead; rw [h]; exact ⟨rfl, rfl⟩

theorem State.afterRead_ideal {s : State} (h : s.periph = .ideal) : s.afterRead = s := by
  unfold State.afterRead; rw [h]

/-- What a read uses up depends on the environment only. -/
theorem State.afterRead_congr {s t : State} (hp : t.periph = s.periph) (hs : t.script = s.script) (hd : t.draws = s.draws) :
    t.afterRead.script = s.afterRead.script ∧ t.afterRead.draws = s.afterRead.draws := by
  cases h : s.periph
  · rw [(State.afterRead_oracle (hp.trans h)).1, (State.afterRead_oracle (hp.trans h)).2, (State.afterRead_oracle h).1,
      (State.afterRead_oracle h).2, hs, hd]
    exact ⟨rfl, rfl⟩
  · rw [State.afterRead_ideal (hp.trans h), State.afterRead_ideal h]; exact ⟨hs, hd⟩

/-- Two states with the same environment answer a read alike. -/
theorem State.busAnswer_congr {s t : State} (hp : t.periph = s.periph) (hs : t.script = s.script)
    (hd : t.draws = s.draws) (hm : t.mem = s.mem) (a : Byte) : t.busAnswer a = s.busAnswer a := by
  unfold State.busAnswer; rw [hp, hs, hd, hm]

theorem State.busAnswer_ideal {s : State} (h : s.periph = .ideal) (a : Byte) :
    s.busAnswer a = Memory.read s.mem a.toNat := by unfold State.busAnswer; rw [h]

theorem State.busAnswer_scripted {s : State} (h : s.periph = .oracle) {b : Byte} {bs : List Byte} (hs : s.script = b :: bs)
    (a : Byte) : s.busAnswer a = b := by unfold State.busAnswer; rw [h, hs]

theorem State.periphWrite_oracle {s : State} (h : s.periph = .oracle) (a v : Byte) : s.periphWrite a v = s := by
  unfold State.periphWrite; rw [h]

theorem State.periphWrite_ideal {s : State} (h : s.periph = .ideal) (a v : Byte) :
    s.periphWrite a v = s.setMem (Memory.write s.mem a.toNat v) := by unfold State.periphWrite; rw [h]

@[simp] theorem State.cmdReady_iff : s.cmdReady = true ↔ s.ras.phase = .idle := by
  simp [State.cmdReady, State.busy]

/-- `whenReady` says next exactly when the block is idle. -/
theorem whenReady_idle {s : State} (h : s.ras.phase = .idle) (t : State) : whenReady s t = .next t := by
  simp [whenReady, h]

theorem whenReady_busy {s : State} (h : s.ras.phase ≠ .idle) (t : State) : whenReady s t = .refused .busy := by
  simp [whenReady, h]

theorem whenReady_next {s t u : State} (h : whenReady s t = .next u) : s.ras.phase = .idle ∧ u = t := by
  by_cases hi : s.ras.phase = .idle
  · rw [whenReady_idle hi] at h; exact ⟨hi, by cases h; rfl⟩
  · rw [whenReady_busy hi] at h; cases h

end Sys2Proof.Machine
end

