-- ==== Sys2Proof/Laws/Ops.lean ====
section
/-! SUPPORT. What each shared operation does, field by field: the bus primitives, the rows of the RAS step relation, the three RAS
operations, the client sequences' loops. Provers cite these and unfold nothing. -/

namespace Sys2Proof.Machine

variable (s : State)

/-! ## The bus primitives -/

@[simp] theorem memRead_params (a : Byte) : (memRead a s).params = s.params := by simp [memRead]
@[simp] theorem memRead_results (a : Byte) : (memRead a s).results = s.results := by simp [memRead]
@[simp] theorem memRead_pulses (a : Byte) : (memRead a s).pulses = s.pulses := by simp [memRead]
@[simp] theorem memRead_host (a : Byte) : (memRead a s).host = s.host := by simp [memRead]
@[simp] theorem memRead_periph (a : Byte) : (memRead a s).periph = s.periph := by simp [memRead]
@[simp] theorem memRead_ras (a : Byte) : (memRead a s).ras = s.ras := by simp [memRead]
@[simp] theorem memRead_responses (a : Byte) : (memRead a s).responses = s.responses := by simp [memRead]
@[simp] theorem memRead_mem (a : Byte) : (memRead a s).mem = s.mem := by simp [memRead]
@[simp] theorem memWrite_params (a v : Byte) : (memWrite a v s).params = s.params := by simp [memWrite]
@[simp] theorem memWrite_results (a v : Byte) : (memWrite a v s).results = s.results := by simp [memWrite]
@[simp] theorem memWrite_pulses (a v : Byte) : (memWrite a v s).pulses = s.pulses := by simp [memWrite]
@[simp] theorem memWrite_host (a v : Byte) : (memWrite a v s).host = s.host := by simp [memWrite]
@[simp] theorem memWrite_periph (a v : Byte) : (memWrite a v s).periph = s.periph := by simp [memWrite]
@[simp] theorem memWrite_ras (a v : Byte) : (memWrite a v s).ras = s.ras := by simp [memWrite]
@[simp] theorem memWrite_responses (a v : Byte) : (memWrite a v s).responses = s.responses := by simp [memWrite]
@[simp] theorem memWrite_script (a v : Byte) : (memWrite a v s).script = s.script := by simp [memWrite]
@[simp] theorem memWrite_draws (a v : Byte) : (memWrite a v s).draws = s.draws := by simp [memWrite]
@[simp] theorem memBitMod_params (a m v : Byte) : (memBitMod a m v s).params = s.params := by simp [memBitMod]
@[simp] theorem memBitMod_results (a m v : Byte) : (memBitMod a m v s).results = s.results := by simp [memBitMod]
@[simp] theorem memBitMod_pulses (a m v : Byte) : (memBitMod a m v s).pulses = s.pulses := by simp [memBitMod]
@[simp] theorem memBitMod_host (a m v : Byte) : (memBitMod a m v s).host = s.host := by simp [memBitMod]
@[simp] theorem memBitMod_periph (a m v : Byte) : (memBitMod a m v s).periph = s.periph := by simp [memBitMod]
@[simp] theorem memBitMod_ras (a m v : Byte) : (memBitMod a m v s).ras = s.ras := by simp [memBitMod]
@[simp] theorem memBitMod_responses (a m v : Byte) : (memBitMod a m v s).responses = s.responses := by simp [memBitMod]
@[simp] theorem memBitMod_script (a m v : Byte) : (memBitMod a m v s).script = s.script := by simp [memBitMod]
@[simp] theorem memBitMod_draws (a m v : Byte) : (memBitMod a m v s).draws = s.draws := by simp [memBitMod]
@[simp] theorem memRead_trace (a : Byte) :
    (memRead a s).trace = s.trace ++ [tRead s.params a (s.busAnswer a)] := by simp [memRead, memReadByte]
@[simp] theorem memWrite_trace (a v : Byte) :
    (memWrite a v s).trace = s.trace ++ [tWrite s.params a v] := by simp [memWrite]
@[simp] theorem memBitMod_trace (a m v : Byte) :
    (memBitMod a m v s).trace = s.trace ++ [tBitmod s.params a m v] := by simp [memBitMod]

@[simp] theorem memRead_script (a : Byte) : (memRead a s).script = s.afterRead.script := by simp [memRead]
@[simp] theorem memRead_draws (a : Byte) : (memRead a s).draws = s.afterRead.draws := by simp [memRead]

@[simp] theorem memReadByte_eq (a : Byte) : memReadByte a s = s.busAnswer a := rfl

/-! ## The RAS operations: the read-back byte, then every field -/

/-- The byte the verifying read of a WRV returns. -/
def wrvRb (a v : Byte) (s : State) : Byte := (memWrite a v s).busAnswer a

/-- The byte the verifying read of an MBV returns. -/
def mbvRb (a m v : Byte) (s : State) : Byte := (memBitMod a m v s).busAnswer a

theorem rdrOp_eq (a : Byte) : rdrOp a s = rdrPrimary (acceptRdr a s) := rfl
theorem wrvOp_eq (a v : Byte) : wrvOp a v s = rasReadback (wrvPrimary (acceptWrv a v s)) := rfl
theorem mbvOp_eq (a m v : Byte) : mbvOp a m v s = rasReadback (mbvPrimary (acceptMbv a m v s)) := rfl

theorem busAnswer_memWrite_setRas (a v : Byte) (r : Ras) (b : Byte) :
    (memWrite a v (s.setRas r)).busAnswer b = (memWrite a v s).busAnswer b := by
  apply State.busAnswer_congr <;> simp [memWrite, State.periphWrite] <;> cases s.periph <;> rfl

theorem busAnswer_memBitMod_setRas (a m v : Byte) (r : Ras) (b : Byte) :
    (memBitMod a m v (s.setRas r)).busAnswer b = (memBitMod a m v s).busAnswer b := by
  apply State.busAnswer_congr <;> simp [memBitMod, State.periphWrite] <;> cases s.periph <;> rfl

@[simp] theorem rdrOp_params (a : Byte) : (rdrOp a s).params = s.params := by simp [rdrOp_eq, rdrPrimary, acceptRdr]
@[simp] theorem rdrOp_results (a : Byte) : (rdrOp a s).results = s.results := by simp [rdrOp_eq, rdrPrimary, acceptRdr]
@[simp] theorem rdrOp_pulses (a : Byte) : (rdrOp a s).pulses = s.pulses := by simp [rdrOp_eq, rdrPrimary, acceptRdr]
@[simp] theorem rdrOp_host (a : Byte) : (rdrOp a s).host = s.host := by simp [rdrOp_eq, rdrPrimary, acceptRdr]
@[simp] theorem rdrOp_periph (a : Byte) : (rdrOp a s).periph = s.periph := by simp [rdrOp_eq, rdrPrimary, acceptRdr]
@[simp] theorem rdrOp_mem (a : Byte) : (rdrOp a s).mem = s.mem := by simp [rdrOp_eq, rdrPrimary, acceptRdr]
@[simp] theorem wrvOp_params (a v : Byte) : (wrvOp a v s).params = s.params := by simp [wrvOp_eq, rasReadback, wrvPrimary, acceptWrv]
@[simp] theorem wrvOp_results (a v : Byte) : (wrvOp a v s).results = s.results := by simp [wrvOp_eq, rasReadback, wrvPrimary, acceptWrv]
@[simp] theorem wrvOp_pulses (a v : Byte) : (wrvOp a v s).pulses = s.pulses := by simp [wrvOp_eq, rasReadback, wrvPrimary, acceptWrv]
@[simp] theorem wrvOp_host (a v : Byte) : (wrvOp a v s).host = s.host := by simp [wrvOp_eq, rasReadback, wrvPrimary, acceptWrv]
@[simp] theorem wrvOp_periph (a v : Byte) : (wrvOp a v s).periph = s.periph := by simp [wrvOp_eq, rasReadback, wrvPrimary, acceptWrv]
@[simp] theorem mbvOp_params (a m v : Byte) : (mbvOp a m v s).params = s.params := by simp [mbvOp_eq, rasReadback, mbvPrimary, acceptMbv]
@[simp] theorem mbvOp_results (a m v : Byte) : (mbvOp a m v s).results = s.results := by simp [mbvOp_eq, rasReadback, mbvPrimary, acceptMbv]
@[simp] theorem mbvOp_pulses (a m v : Byte) : (mbvOp a m v s).pulses = s.pulses := by simp [mbvOp_eq, rasReadback, mbvPrimary, acceptMbv]
@[simp] theorem mbvOp_host (a m v : Byte) : (mbvOp a m v s).host = s.host := by simp [mbvOp_eq, rasReadback, mbvPrimary, acceptMbv]
@[simp] theorem mbvOp_periph (a m v : Byte) : (mbvOp a m v s).periph = s.periph := by simp [mbvOp_eq, rasReadback, mbvPrimary, acceptMbv]

@[simp] theorem rdrOp_ras (a : Byte) :
    (rdrOp a s).ras = { s.ras with op := .rdr, addr := a, rb := s.busAnswer a, result := .ok, phase := .idle } := by
  simp [rdrOp_eq, rdrPrimary, acceptRdr]

@[simp] theorem rdrOp_trace (a : Byte) : (rdrOp a s).trace = s.trace ++ [tRead s.params a (s.busAnswer a)] := by
  simp [rdrOp_eq, rdrPrimary, acceptRdr]

@[simp] theorem rdrOp_responses (a : Byte) : (rdrOp a s).responses = s.responses ++ [⟨.ok, .byte (s.busAnswer a)⟩] := by
  simp [rdrOp_eq, rdrPrimary, acceptRdr]

@[simp] theorem wrvOp_ras (a v : Byte) :
    (wrvOp a v s).ras = ⟨.idle, .wrv, a, 0xFF#8, v, wrvRb a v s, wrvCode v (wrvRb a v s)⟩ := by
  simp [wrvOp_eq, rasReadback, wrvPrimary, acceptWrv, verifyCode, wrvRb, busAnswer_memWrite_setRas]

@[simp] theorem wrvOp_trace (a v : Byte) :
    (wrvOp a v s).trace = s.trace ++ [tWrite s.params a v, tRead s.params a (wrvRb a v s)] := by
  simp [wrvOp_eq, rasReadback, wrvPrimary, acceptWrv, wrvRb, busAnswer_memWrite_setRas]

@[simp] theorem wrvOp_responses (a v : Byte) :
    (wrvOp a v s).responses = s.responses ++ [⟨wrvCode v (wrvRb a v s), .empty⟩] := by
  simp [wrvOp_eq, rasReadback, wrvPrimary, acceptWrv, verifyCode, wrvRb, busAnswer_memWrite_setRas]

@[simp] theorem wrvOp_mem (a v : Byte) : (wrvOp a v s).mem = (s.periphWrite a v).mem := by
  simp [wrvOp_eq, rasReadback, wrvPrimary, acceptWrv, memWrite, State.periphWrite]; cases s.periph <;> rfl

@[simp] theorem mbvOp_ras (a m v : Byte) :
    (mbvOp a m v s).ras = ⟨.idle, .mbv, a, m, v, mbvRb a m v s, mbvCode m v (mbvRb a m v s)⟩ := by
  simp [mbvOp_eq, rasReadback, mbvPrimary, acceptMbv, verifyCode, mbvRb, busAnswer_memBitMod_setRas]

@[simp] theorem mbvOp_trace (a m v : Byte) :
    (mbvOp a m v s).trace = s.trace ++ [tBitmod s.params a m v, tRead s.params a (mbvRb a m v s)] := by
  simp [mbvOp_eq, rasReadback, mbvPrimary, acceptMbv, mbvRb, busAnswer_memBitMod_setRas]

@[simp] theorem mbvOp_responses (a m v : Byte) :
    (mbvOp a m v s).responses = s.responses ++ [⟨mbvCode m v (mbvRb a m v s), .empty⟩] := by
  simp [mbvOp_eq, rasReadback, mbvPrimary, acceptMbv, verifyCode, mbvRb, busAnswer_memBitMod_setRas]

@[simp] theorem mbvOp_mem (a m v : Byte) :
    (mbvOp a m v s).mem = (s.periphWrite a ((Memory.read s.mem a.toNat &&& ~~~m) ||| (v &&& m))).mem := by
  simp [mbvOp_eq, rasReadback, mbvPrimary, acceptMbv, memBitMod, State.periphWrite]; cases s.periph <;> rfl

@[simp] theorem rdrOp_script (a : Byte) : (rdrOp a s).script = s.afterRead.script := by
  simp only [rdrOp_eq, rdrPrimary, acceptRdr, State.respond_script, State.setRas_script, memRead_script]
  exact (State.afterRead_congr (by simp) (by simp) (by simp)).1
@[simp] theorem rdrOp_draws (a : Byte) : (rdrOp a s).draws = s.afterRead.draws := by
  simp only [rdrOp_eq, rdrPrimary, acceptRdr, State.respond_draws, State.setRas_draws, memRead_draws]
  exact (State.afterRead_congr (by simp) (by simp) (by simp)).2
@[simp] theorem wrvOp_script (a v : Byte) : (wrvOp a v s).script = s.afterRead.script := by
  simp only [wrvOp_eq, rasReadback, wrvPrimary, acceptWrv, State.respond_script, State.setRas_script, memRead_script]
  exact (State.afterRead_congr (by simp) (by simp) (by simp)).1
@[simp] theorem wrvOp_draws (a v : Byte) : (wrvOp a v s).draws = s.afterRead.draws := by
  simp only [wrvOp_eq, rasReadback, wrvPrimary, acceptWrv, State.respond_draws, State.setRas_draws, memRead_draws]
  exact (State.afterRead_congr (by simp) (by simp) (by simp)).2
@[simp] theorem mbvOp_script (a m v : Byte) : (mbvOp a m v s).script = s.afterRead.script := by
  simp only [mbvOp_eq, rasReadback, mbvPrimary, acceptMbv, State.respond_script, State.setRas_script, memRead_script]
  exact (State.afterRead_congr (by simp) (by simp) (by simp)).1
@[simp] theorem mbvOp_draws (a m v : Byte) : (mbvOp a m v s).draws = s.afterRead.draws := by
  simp only [mbvOp_eq, rasReadback, mbvPrimary, acceptMbv, State.respond_draws, State.setRas_draws, memRead_draws]
  exact (State.afterRead_congr (by simp) (by simp) (by simp)).2

/-! ## The memory frame and the ideal peripheral -/

theorem periphWrite_mem_other {a : Byte} {x : Nat} (hx : x ≠ a.toNat) (v : Byte) :
    Memory.read (s.periphWrite a v).mem x = Memory.read s.mem x := by
  unfold State.periphWrite; split
  · rfl
  · exact Memory.read_write_other hx v

theorem periphWrite_wf {s : State} (h : Memory.wf s.mem = true) (a v : Byte) :
    Memory.wf (s.periphWrite a v).mem = true := by
  unfold State.periphWrite; split
  · exact h
  · exact Memory.wf_write h a.isLt v

theorem wrvRb_oracle {s : State} (h : s.periph = .oracle) (a v : Byte) : wrvRb a v s = s.busAnswer a := by
  simp [wrvRb, memWrite, State.periphWrite_oracle h]

theorem mbvRb_oracle {s : State} (h : s.periph = .oracle) (a m v : Byte) : mbvRb a m v s = s.busAnswer a := by
  simp [mbvRb, memBitMod, State.periphWrite_oracle h]

theorem wrvRb_ideal {s : State} (h : s.periph = .ideal) (hm : Memory.wf s.mem = true) (a v : Byte) : wrvRb a v s = v := by
  rw [wrvRb, State.busAnswer_ideal (by simpa using h)]
  simp [memWrite, State.periphWrite_ideal h, Memory.read_write_same hm]

theorem mbvRb_ideal {s : State} (h : s.periph = .ideal) (hm : Memory.wf s.mem = true) (a m v : Byte) :
    mbvRb a m v s = (Memory.read s.mem a.toNat &&& ~~~m) ||| (v &&& m) := by
  rw [mbvRb, State.busAnswer_ideal (by simpa using h)]
  simp [memBitMod, State.periphWrite_ideal h, Memory.read_write_same hm]

/-! ## Every command: what exec answers -/

/-- The state a command leads to. -/
def instrOp : Instr → State → State
  | .rdr a, s => rdrOp a s
  | .wrv a v, s => wrvOp a v s
  | .mbv a m v, s => mbvOp a m v s
  | .enc id ext, s => encOp id ext s
  | .dec sidh sidl eid8 eid0, s => decOp ⟨sidh, sidl, eid8, eid0⟩ s
  | .res k i, s => resOp k i s

theorem exec_eq (i : Instr) : exec i s = whenReady s (instrOp i s) := by cases i <;> rfl

theorem exec_idle {s : State} (h : s.ras.phase = .idle) (i : Instr) : exec i s = .next (instrOp i s) := by
  rw [exec_eq, whenReady_idle h]

theorem exec_busy {s : State} (h : s.ras.phase ≠ .idle) (i : Instr) : exec i s = .refused .busy := by
  rw [exec_eq, whenReady_busy h]

theorem exec_next {s t : State} {i : Instr} (h : exec i s = .next t) : s.ras.phase = .idle ∧ t = instrOp i s :=
  whenReady_next (exec_eq s i ▸ h)

/-! ## One step -/

theorem step_idle {s : State} (h : s.ras.phase = .idle) : step s = idleStep s := by simp [step, h]

theorem step_busy {s : State} (h : s.ras.phase ≠ .idle) : step s = busyStep s := by simp [step, h]

end Sys2Proof.Machine
end

