-- ==== Sys2Proof/Laws/Bam.lean ====
section
/-! SUPPORT. What `resolve` answers, kind by kind and index by index (43_buffer_index.md R142). -/

namespace Sys2Proof.Machine

variable (p : Params)

theorem resolve_tx {index : Byte} (h : index.toNat < 3) :
    resolve p .tx index = some ⟨p.txSidh[index.toNat], none⟩ := by
  simp [resolve, h]

theorem resolve_rx {index : Byte} (h : index.toNat < 2) :
    resolve p .rx index =
      some ⟨p.rxSidh[index.toNat], some (p.rxSidh[index.toNat] + ctrlOffset p.rxCtrlPlace)⟩ := by
  simp [resolve, h]

theorem resolve_tx_invalid {index : Byte} (h : 3 ≤ index.toNat) : resolve p .tx index = none := by
  simp [resolve, Vector.getElem?_eq_none h]

theorem resolve_rx_invalid {index : Byte} (h : 2 ≤ index.toNat) : resolve p .rx index = none := by
  simp [resolve, Vector.getElem?_eq_none h]

/-- A TX block has no CTRL, an RX block has one. -/
theorem resolve_ctrl {kind : Kind} {index : Byte} {blk : RegisterBlock} (h : resolve p kind index = some blk) :
    blk.ctrlAddr = match kind with
      | .tx => none
      | .rx => some (blk.sidhAddr + ctrlOffset p.rxCtrlPlace) := by
  cases kind <;> simp only [resolve, Option.map_eq_some_iff] at h <;> obtain ⟨S, -, rfl⟩ := h <;> rfl

/-! ## Where the blocks lie (00_scope.md R6) -/

/-- The buffer's place among the five spans of `Params.spans`. -/
def bufferNo (kind : Kind) (index : Byte) : Nat :=
  match kind with
  | .tx => index.toNat
  | .rx => 3 + index.toNat

/-- The span of a block of a kind with SIDH at `S`. -/
def spanOf (p : Params) (kind : Kind) (S : Byte) : Int × Int :=
  match kind with
  | .tx => txSpan S
  | .rx => rxSpan p S

/-- The block RES answers lies where `Params.spans` says. -/
theorem resolve_span {kind : Kind} {index : Byte} {blk : RegisterBlock} (h : resolve p kind index = some blk) :
    p.spans[bufferNo kind index]? = some (spanOf p kind blk.sidhAddr) := by
  cases kind with
  | tx =>
    by_cases hn : index.toNat < 3
    · rw [resolve_tx p hn] at h; cases h
      obtain h | h | h : index.toNat = 0 ∨ index.toNat = 1 ∨ index.toNat = 2 := by omega
      all_goals simp [bufferNo, h, Params.spans, spanOf]
    · rw [resolve_tx_invalid p (by omega)] at h; cases h
  | rx =>
    by_cases hn : index.toNat < 2
    · rw [resolve_rx p hn] at h; cases h
      obtain h | h : index.toNat = 0 ∨ index.toNat = 1 := by omega
      all_goals simp [bufferNo, h, Params.spans, spanOf]
    · rw [resolve_rx_invalid p (by omega)] at h; cases h

/-- A buffer that RES resolves has an index in range, so its number names it. -/
theorem bufferNo_inj {kind kind' : Kind} {index index' : Byte} {blk blk' : RegisterBlock}
    (h : resolve p kind index = some blk) (h' : resolve p kind' index' = some blk')
    (he : bufferNo kind index = bufferNo kind' index') : kind = kind' ∧ index = index' := by
  have tx (n : Byte) (b : RegisterBlock) (hb : resolve p .tx n = some b) : n.toNat < 3 := by
    by_contra hc; rw [resolve_tx_invalid p (by omega)] at hb; cases hb
  cases kind <;> cases kind' <;> simp only [bufferNo] at he
  · exact ⟨rfl, BitVec.eq_of_toNat_eq he⟩
  · have := tx _ _ h; omega
  · have := tx _ _ h'; omega
  · exact ⟨rfl, BitVec.eq_of_toNat_eq (by omega)⟩

/-- What the constraints of 00_scope.md R6 say of the blocks. -/
theorem Params.wf_blocksOk {p : Params} (h : p.wf = true) : p.blocksOk = true := by
  simp only [Params.wf, Bool.and_eq_true] at h
  exact h.1.1.1.2

/-- What they say of the request-to-send bytes. -/
theorem Params.wf_rtsFlagsOk {p : Params} (h : p.wf = true) : p.rtsFlagsOk = true := by
  simp only [Params.wf, Bool.and_eq_true] at h
  exact h.2

/-- Every span of well-formed parameters lies in the map. -/
theorem spans_inMap {p : Params} (h : p.wf = true) {n : Nat} {x : Int × Int} (hx : p.spans[n]? = some x) :
    0 ≤ x.1 ∧ x.2 ≤ 0x7D := by
  have hb := Params.wf_blocksOk h
  simp only [Params.blocksOk, Bool.and_eq_true, List.all_eq_true] at hb
  have hm := hb.1 x (List.mem_of_getElem? hx)
  simp only [spanInMap, Bool.and_eq_true] at hm
  exact ⟨of_decide_eq_true hm.1, of_decide_eq_true hm.2⟩

/-- Two spans of well-formed parameters share no address. -/
theorem spans_disjoint {p : Params} (h : p.wf = true) {n m : Nat} {x y : Int × Int} (hx : p.spans[n]? = some x)
    (hy : p.spans[m]? = some y) (hne : n ≠ m) : x.2 < y.1 ∨ y.2 < x.1 := by
  have hb := Params.wf_blocksOk h
  simp only [Params.blocksOk, Bool.and_eq_true, decide_eq_true_eq] at hb
  have hp := List.pairwise_iff_getElem.1 hb.2
  obtain ⟨hn, rfl⟩ := List.getElem?_eq_some_iff.1 hx
  obtain ⟨hm, rfl⟩ := List.getElem?_eq_some_iff.1 hy
  rcases Nat.lt_or_gt_of_ne hne with hlt | hlt
  · simpa [spansDisjoint] using hp n m hn hm hlt
  · simpa [spansDisjoint, or_comm] using hp m n hm hn hlt

/-! ## The address operands of the assembler (30_encoding.md R87, 43_buffer_index.md R145) -/

/-- A common register of a TX buffer. -/
theorem AddrOperand.eval_tx {n S : Byte} (h : p.txSidh[n.toNat]? = some S) (f : CommonField) :
    AddrOperand.eval p (.field .tx n (.common f)) = some (S + f.offset) := by
  simp [AddrOperand.eval, resolve, h, blockAddr, commonAddr]

/-- A common register of an RX buffer. -/
theorem AddrOperand.eval_rx {n S : Byte} (h : p.rxSidh[n.toNat]? = some S) (f : CommonField) :
    AddrOperand.eval p (.field .rx n (.common f)) = some (S + f.offset) := by
  simp [AddrOperand.eval, resolve, h, blockAddr, commonAddr]

/-- CTRL of an RX buffer. -/
theorem AddrOperand.eval_rxCtrl {n S : Byte} (h : p.rxSidh[n.toNat]? = some S) :
    AddrOperand.eval p (.field .rx n .ctrl) = some (S + ctrlOffset p.rxCtrlPlace) := by
  simp [AddrOperand.eval, resolve, h, blockAddr]

/-- CTRL of a TX buffer names no register. -/
theorem AddrOperand.eval_txCtrl (n : Byte) : AddrOperand.eval p (.field .tx n .ctrl) = none := by
  simp only [AddrOperand.eval, resolve]
  cases p.txSidh[n.toNat]? <;> rfl

/-- A field of a buffer that RES does not resolve names no register. -/
theorem AddrOperand.eval_none {kind : Kind} {n : Byte} (h : resolve p kind n = none) (f : Field) :
    AddrOperand.eval p (.field kind n f) = none := by
  simp [AddrOperand.eval, h]

end Sys2Proof.Machine
end

