-- ==== Sys2Proof/Laws/Bits.lean ====
section
/-! SUPPORT. The encoder's words meet the opcode table's rows, bit by bit. -/

namespace Sys2Proof.Laws

theorem fits_rdr (addr : Byte) : rdrRow.fits (encode (.rdr addr)) = true := by
  simp only [Row.fits, rdrRow, encode, beq_iff_eq]
  ext i hi
  simp only [BitVec.getElem_and, BitVec.getElem_append]
  interval_cases i <;> simp

theorem fits_wrv (addr value : Byte) : wrvRow.fits (encode (.wrv addr value)) = true := by
  simp only [Row.fits, wrvRow, encode, beq_iff_eq]
  ext i hi
  simp only [BitVec.getElem_and, BitVec.getElem_append]
  interval_cases i <;> simp

theorem fits_mbv (addr mask value : Byte) : mbvRow.fits (encode (.mbv addr mask value)) = true := by
  simp only [Row.fits, mbvRow, encode, beq_iff_eq]
  ext i hi
  simp only [BitVec.getElem_and, BitVec.getElem_append]
  interval_cases i <;> simp

theorem fits_enc (id : Ident) (ext : Bool) : encRow.fits (encode (.enc id ext)) = true := by
  simp only [Row.fits, encRow, encode, beq_iff_eq]
  ext i hi
  simp only [BitVec.getElem_and, BitVec.getElem_append]
  interval_cases i <;> simp

theorem fits_dec (sidh sidl eid8 eid0 : Byte) : decRow.fits (encode (.dec sidh sidl eid8 eid0)) = true := by
  simp only [Row.fits, decRow, encode, beq_iff_eq]
  ext i hi
  simp only [BitVec.getElem_and, BitVec.getElem_append]
  interval_cases i <;> simp

theorem fits_res (kind : Kind) (index : Byte) : resRow.fits (encode (.res kind index)) = true := by
  simp only [Row.fits, resRow, encode, beq_iff_eq]
  ext i hi
  simp only [BitVec.getElem_and, BitVec.getElem_append]
  cases kind <;> interval_cases i <;> simp [Kind.bit]

/-- A word that fits two rows shows that the rows agree on the bits both fix. -/
theorem rows_agree {r q : Row} {w : CmdWord} (hr : r.fits w = true) (hq : q.fits w = true) :
    r.value &&& q.mask = q.value &&& r.mask := by
  simp only [Row.fits, beq_iff_eq] at hr hq
  rw [← hr, ← hq, BitVec.and_assoc, BitVec.and_assoc, BitVec.and_comm r.mask]

/-- A word of one row fits no row that differs on a bit both fix. -/
theorem fits_other {r q : Row} {w : CmdWord} (hr : r.fits w = true)
    (hne : r.value &&& q.mask ≠ q.value &&& r.mask) : q.fits w = false := by
  by_contra h
  exact hne (rows_agree hr (by simpa using h))

end Sys2Proof.Laws
end

