-- ==== Sys2Proof/Laws/Codec.lean ====
section
/-! SUPPORT. The codec's small lemmas: each field of an image, each branch of the decoder, so that no proof unfolds them. -/

namespace Sys2Proof.Machine

variable (id : Ident)

@[simp] theorem encodeId_ext_sidh : (encodeId id true).sidh = id.extractLsb' 21 8 := rfl
@[simp] theorem encodeId_ext_sidl : (encodeId id true).sidl =
    ((id.extractLsb' 18 3).setWidth 8 <<< 5 ||| 0x08#8 ||| (id.extractLsb' 16 2).setWidth 8) := rfl
@[simp] theorem encodeId_ext_eid8 : (encodeId id true).eid8 = id.extractLsb' 8 8 := rfl
@[simp] theorem encodeId_ext_eid0 : (encodeId id true).eid0 = id.extractLsb' 0 8 := rfl
@[simp] theorem encodeId_std_sidh : (encodeId id false).sidh = id.extractLsb' 3 8 := rfl
@[simp] theorem encodeId_std_sidl : (encodeId id false).sidl = (id.extractLsb' 0 3).setWidth 8 <<< 5 := rfl
@[simp] theorem encodeId_std_eid8 : (encodeId id false).eid8 = 0#8 := rfl
@[simp] theorem encodeId_std_eid0 : (encodeId id false).eid0 = 0#8 := rfl

/-- ENC puts the flag where DEC reads it. -/
@[simp] theorem imageExt_encodeId (ext : Bool) : imageExt (encodeId id ext) = ext := by
  cases ext <;> simp [imageExt]

/-- The extended branch of DEC. -/
theorem imageId_ext {img : IdImage} (h : imageExt img = true) :
    imageId img = (img.sidh.setWidth 32 <<< 21 ||| (img.sidl &&& 0xE0#8).setWidth 32 <<< 13 |||
      (img.sidl &&& 0x03#8).setWidth 32 <<< 16 ||| img.eid8.setWidth 32 <<< 8 ||| img.eid0.setWidth 32) := by
  rw [imageId, if_pos h]

/-- The standard branch of DEC. -/
theorem imageId_std {img : IdImage} (h : imageExt img = false) :
    imageId img = (img.sidh.setWidth 32 <<< 3 ||| (img.sidl &&& 0xE0#8).setWidth 32 >>> 5) := by
  rw [imageId, if_neg (by simp [h])]

end Sys2Proof.Machine
end

