-- ==== Sys2Proof/Laws/Client.lean ====
section
/-! SUPPORT. What a run of block operations does to the state, said once (`BlockRun`) and closed under composition; the loops of
LOADFRAME and READFRAME; what each client sequence leaves. -/

namespace Sys2Proof.Machine

/-- What any number of completed block operations, one after another, does. -/
structure BlockRun (s t : State) : Prop where
  params : t.params = s.params
  results : t.results = s.results
  pulses : t.pulses = s.pulses
  host : t.host = s.host
  periph : t.periph = s.periph
  trace : s.trace <+: t.trace
  responses : s.responses <+: t.responses
  answers : ∃ rs, t.responses = s.responses ++ rs ∧ ∀ r ∈ rs, r.code ≠ .refused
  idle : s.ras.phase = .idle → t.ras.phase = .idle
  formats : s.trace.all (Transaction.formatOk s.params) = true → t.trace.all (Transaction.formatOk s.params) = true
  shapes : s.responses.all Response.shapeOk = true → t.responses.all Response.shapeOk = true
  memWf : Memory.wf s.mem = true → Memory.wf t.mem = true
  oracle : s.periph = .oracle → t.mem = s.mem

theorem BlockRun.refl (s : State) : BlockRun s s :=
  ⟨rfl, rfl, rfl, rfl, rfl, List.prefix_refl _, List.prefix_refl _, ⟨[], by simp⟩, id, id, id, id, fun _ => rfl⟩

theorem BlockRun.trans {s t u : State} (h : BlockRun s t) (k : BlockRun t u) : BlockRun s u where
  params := k.params.trans h.params
  results := k.results.trans h.results
  pulses := k.pulses.trans h.pulses
  host := k.host.trans h.host
  periph := k.periph.trans h.periph
  trace := h.trace.trans k.trace
  responses := h.responses.trans k.responses
  answers := by
    obtain ⟨rs, e, hr⟩ := h.answers
    obtain ⟨qs, f, hq⟩ := k.answers
    exact ⟨rs ++ qs, by rw [f, e, List.append_assoc], fun r hm => (List.mem_append.1 hm).elim (hr r) (hq r)⟩
  idle := fun hi => k.idle (h.idle hi)
  formats := fun hf => h.params ▸ k.formats (h.params ▸ h.formats hf)
  shapes := fun hs => k.shapes (h.shapes hs)
  memWf := fun hm => k.memWf (h.memWf hm)
  oracle := fun ho => (k.oracle (h.periph.trans ho)).trans (h.oracle ho)

@[simp] theorem formatOk_tRead (p : Params) (a b : Byte) : (tRead p a b).formatOk p = true := by
  simp [tRead, Transaction.formatOk]
@[simp] theorem formatOk_tWrite (p : Params) (a v : Byte) : (tWrite p a v).formatOk p = true := by
  simp [tWrite, Transaction.formatOk]
@[simp] theorem formatOk_tBitmod (p : Params) (a m v : Byte) : (tBitmod p a m v).formatOk p = true := by
  simp [tBitmod, Transaction.formatOk]
@[simp] theorem formatOk_tReset (p : Params) : (tReset p).formatOk p = true := by
  simp [tReset, Transaction.formatOk]
theorem formatOk_tRts {p : Params} {b : Byte} (h : b ∈ rtsBytes p) : (tRts b).formatOk p = true := by
  simp [tRts, Transaction.formatOk, h]

theorem wrvCode_shape (v b : Byte) : Response.shapeOk ⟨wrvCode v b, .empty⟩ = true := by simp [Response.shapeOk]

theorem BlockRun.respond (s : State) {r : Response} (h : r.shapeOk = true) (hc : r.code ≠ .refused) :
    BlockRun s (s.respond r) where
  params := rfl
  results := rfl
  pulses := rfl
  host := rfl
  periph := rfl
  trace := List.prefix_refl _
  responses := List.prefix_append _ _
  answers := ⟨[r], rfl, by simpa using hc⟩
  idle := id
  formats := id
  shapes := fun hs => by simp [hs, h]
  memWf := id
  oracle := fun _ => rfl

theorem BlockRun.enc (id : Ident) (ext : Bool) (s : State) : BlockRun s (encOp id ext s) := .respond s rfl (by simp)
theorem BlockRun.dec (img : IdImage) (s : State) : BlockRun s (decOp img s) := .respond s rfl (by simp)
theorem BlockRun.res (k : Kind) (n : Byte) (s : State) : BlockRun s (resOp k n s) := by
  refine .respond s ?_ ?_ <;> cases resolve s.params k n <;> simp [resResponse, Response.shapeOk]

theorem okIf_eq (b : Bool) : okIf b = .ok ∨ okIf b = .fail := by cases b <;> simp [okIf]

theorem BlockRun.rdr (a : Byte) (s : State) : BlockRun s (rdrOp a s) where
  params := by simp
  results := by simp
  pulses := by simp
  host := by simp
  periph := by simp
  trace := by simp
  responses := by simp
  answers := ⟨_, rdrOp_responses s a, by simp⟩
  idle := by simp
  formats := fun h => by simp [h]
  shapes := fun h => by simp [h, Response.shapeOk]
  memWf := by simp
  oracle := by simp

theorem BlockRun.wrv (a v : Byte) (s : State) : BlockRun s (wrvOp a v s) where
  params := by simp
  results := by simp
  pulses := by simp
  host := by simp
  periph := by simp
  trace := by simp
  responses := by simp
  answers := ⟨_, wrvOp_responses s a v, by rcases okIf_eq (wrvRb a v s == v) with h | h <;> simp [wrvCode, h]⟩
  idle := by simp
  formats := fun h => by simp [h]
  shapes := fun h => by simp [h, Response.shapeOk]
  memWf := fun h => by simpa using periphWrite_wf h a v
  oracle := fun h => by simp [State.periphWrite_oracle h]

theorem BlockRun.mbv (a m v : Byte) (s : State) : BlockRun s (mbvOp a m v s) where
  params := by simp
  results := by simp
  pulses := by simp
  host := by simp
  periph := by simp
  trace := by simp
  responses := by simp
  answers := ⟨_, mbvOp_responses s a m v, by rcases okIf_eq (mbvRb a m v s &&& m == v &&& m) with h | h <;> simp [mbvCode, h]⟩
  idle := by simp
  formats := fun h => by simp [h]
  shapes := fun h => by simp [h, Response.shapeOk]
  memWf := fun h => by simpa using periphWrite_wf h a _
  oracle := fun h => by simp [State.periphWrite_oracle h]

/-- Every command, once run, is a run of the block. -/
theorem BlockRun.instr (i : Instr) (s : State) : BlockRun s (instrOp i s) := by
  cases i with
  | rdr a => exact .rdr a s
  | wrv a v => exact .wrv a v s
  | mbv a m v => exact .mbv a m v s
  | enc id ext => exact .enc id ext s
  | dec a b c d => exact .dec _ s
  | res k n => exact .res k n s

/-! ## The loop of LOADFRAME -/

/-- The read-back bytes of the writes of `wrvAll`. -/
def wrvAllRbs : List (Byte × Byte) → State → List Byte
  | [], _ => []
  | w :: ws, s => wrvRb w.1 w.2 s :: wrvAllRbs ws (wrvOp w.1 w.2 s)

theorem wrvAllRbs_length (ws : List (Byte × Byte)) (s : State) : (wrvAllRbs ws s).length = ws.length := by
  induction ws generalizing s with
  | nil => rfl
  | cons w ws ih => simp [wrvAllRbs, ih]

theorem BlockRun.wrvAll (ws : List (Byte × Byte)) (s : State) : BlockRun s (wrvAll ws s) := by
  induction ws generalizing s with
  | nil => exact .refl s
  | cons w ws ih => exact (BlockRun.wrv w.1 w.2 s).trans (ih _)

theorem wrvAll_trace (ws : List (Byte × Byte)) (s : State) : (wrvAll ws s).trace =
    s.trace ++ (ws.zip (wrvAllRbs ws s)).flatMap fun x => [tWrite s.params x.1.1 x.1.2, tRead s.params x.1.1 x.2] := by
  induction ws generalizing s with
  | nil => simp [Machine.wrvAll]
  | cons w ws ih => simp [Machine.wrvAll, wrvAllRbs, ih]

theorem wrvAllCode_eq (ws : List (Byte × Byte)) (s : State) :
    wrvAllCode ws s = if ∀ x ∈ ws.zip (wrvAllRbs ws s), x.2 = x.1.2 then .ok else .fail := by
  induction ws generalizing s with
  | nil => simp [wrvAllCode]
  | cons w ws ih =>
    simp only [wrvAllCode, wrvAllRbs, List.zip_cons_cons, List.forall_mem_cons, ih, wrvOp_ras, wrvCode, okIf, beq_iff_eq]
    by_cases h1 : wrvRb w.1 w.2 s = w.2
    · simp only [h1, if_true, true_and]
      by_cases h2 : ∀ x ∈ ws.zip (wrvAllRbs ws (wrvOp w.1 w.2 s)), x.2 = x.1.2
      · rw [if_pos h2]; rfl
      · rw [if_neg h2]; rfl
    · simp only [h1, if_false, false_and]; rfl

/-- `wrvAll` changes no byte of memory but at the addresses it writes. -/
theorem wrvAll_mem_other (ws : List (Byte × Byte)) (s : State) {x : Nat} (h : ∀ w ∈ ws, x ≠ w.1.toNat) :
    Memory.read (wrvAll ws s).mem x = Memory.read s.mem x := by
  induction ws generalizing s with
  | nil => rfl
  | cons w ws ih =>
    rw [Machine.wrvAll, ih _ fun v hv => h v (by simp [hv])]
    simp [periphWrite_mem_other s (h w (by simp))]

/-! ## The loop of READFRAME -/

theorem rdrAllBytes_length (as : List Byte) (s : State) : (rdrAllBytes as s).length = as.length := by
  induction as generalizing s with
  | nil => rfl
  | cons a as ih => simp [rdrAllBytes, ih]

theorem BlockRun.rdrAll (as : List Byte) (s : State) : BlockRun s (rdrAll as s) := by
  induction as generalizing s with
  | nil => exact .refl s
  | cons a as ih => exact (BlockRun.rdr a s).trans (ih _)

theorem rdrAll_trace (as : List Byte) (s : State) : (rdrAll as s).trace =
    s.trace ++ (as.zip (rdrAllBytes as s)).map fun x => tRead s.params x.1 x.2 := by
  induction as generalizing s with
  | nil => simp [Machine.rdrAll]
  | cons a as ih => simp [Machine.rdrAll, rdrAllBytes, ih]

@[simp] theorem rdrAll_mem (as : List Byte) (s : State) : (rdrAll as s).mem = s.mem := by
  induction as generalizing s with
  | nil => rfl
  | cons a as ih => simp [Machine.rdrAll, ih]

/-- As many data registers are read as the length says, at most eight, from D0 up. -/
theorem readIndices_eq (len : Nat) : readIndices len = dataIndices.take (min len 8) := by
  by_cases h : len < 8
  · interval_cases len <;> decide
  · rw [show min len 8 = 8 by omega, readIndices, List.filter_eq_self.2 fun i _ => by simp; omega]
    rfl

theorem dlcLength_le (b : Byte) : dlcLength b ≤ 15 := by
  rw [dlcLength, BitVec.toNat_and]; exact Nat.and_le_right

end Sys2Proof.Machine
end

