-- ==== Sys2Proof/Laws/PerInstr.lean ====
section
/-! SUPPORT. The family TableRow: every command's word has the fixed bits of its row of spec/opcode_table.json. -/

namespace Sys2Proof.Laws.TableRow

/-- The word of the command fits its own row, and the row is one of the table's. -/
def Statement (i : Instr) : Prop := i.row ∈ opcodeRows ∧ i.row.fits (encode i) = true

theorem rdr (addr : Byte) : Statement (.rdr addr) := ⟨by simp [Instr.row, opcodeRows], fits_rdr addr⟩
theorem wrv (addr value : Byte) : Statement (.wrv addr value) := ⟨by simp [Instr.row, opcodeRows], fits_wrv addr value⟩
theorem mbv (addr mask value : Byte) : Statement (.mbv addr mask value) := ⟨by simp [Instr.row, opcodeRows], fits_mbv addr mask value⟩
theorem enc (id : Ident) (ext : Bool) : Statement (.enc id ext) := ⟨by simp [Instr.row, opcodeRows], fits_enc id ext⟩
theorem dec (sidh sidl eid8 eid0 : Byte) : Statement (.dec sidh sidl eid8 eid0) := ⟨by simp [Instr.row, opcodeRows], fits_dec sidh sidl eid8 eid0⟩
theorem res (kind : Kind) (index : Byte) : Statement (.res kind index) := ⟨by simp [Instr.row, opcodeRows], fits_res kind index⟩

end Sys2Proof.Laws.TableRow
end

