-- ==== Sys2Proof/Laws/Step.lean ====
section
/-! SUPPORT. Everything one step can do, said once (`StepTo`, `step_cases`); what each client sequence leaves, as a run of the block
and one result. Provers cite these and do not unfold `step`. -/

namespace Sys2Proof.Machine

/-! ## The client sequences as runs of the block -/

theorem BlockRun.drew (s : State) : BlockRun s s.drew :=
  ⟨rfl, rfl, rfl, rfl, rfl, List.prefix_refl _, List.prefix_refl _, ⟨[], by simp⟩, id, id, id, id, fun _ => rfl⟩

theorem BlockRun.log (s : State) {e : Transaction} (h : e.formatOk s.params = true) : BlockRun s (s.log e) where
  params := rfl
  results := rfl
  pulses := rfl
  host := rfl
  periph := rfl
  trace := List.prefix_append _ _
  responses := List.prefix_refl _
  answers := ⟨[], by simp⟩
  idle := id
  formats := fun hf => by simp [hf, h]
  shapes := id
  memWf := id
  oracle := fun _ => rfl

/-- SWMODE ends with `Ok` or `Fail`. -/
theorem swmodeCode_eq (a c : BitVec 3) (r : ResultCode) (d : Bool) : swmodeCode a c r d = .ok ∨ swmodeCode a c r d = .fail := by
  unfold swmodeCode
  split
  · simp
  · split
    · simp
    · exact okIf_eq d

theorem swmode_run (mode : Mode) (s : State) :
    ∃ (u : State) (c : ResultCode), swmode mode s = u.finish ⟨c, none⟩ ∧ BlockRun s u ∧ (c = .ok ∨ c = .fail) := by
  have h : BlockRun s (swmodeOps mode s) := (BlockRun.mbv _ _ _ s).trans (BlockRun.rdr _ _)
  refine ⟨_, _, rfl, ?_, swmodeCode_eq _ _ _ _⟩
  split
  · exact h.trans (.drew _)
  · exact h

/-- RESET in the instruction variant. -/
theorem reset_instruction {s : State} (h : s.params.resetVariant = .instruction) :
    resetPeripheral s = (s.log (tReset s.params)).finish ⟨.ok, none⟩ := by simp [resetPeripheral, h]

/-- RESET in the pin variant. -/
theorem reset_pin {s : State} (h : s.params.resetVariant = .pin) :
    resetPeripheral s = State.finish { s with pulses := s.pulses + 1 } ⟨.ok, none⟩ := by simp [resetPeripheral, h]

/-- The result LOADFRAME forms is `Ok` or `Fail`. -/
theorem wrvAllCode_cases (ws : List (Byte × Byte)) (s : State) : wrvAllCode ws s = .ok ∨ wrvAllCode ws s = .fail := by
  rw [wrvAllCode_eq]; split <;> simp

theorem loadFrame_run (index : Byte) (f : CanFrame) (s : State) :
    ∃ (u : State) (c : ResultCode), loadFrame index f s = u.finish ⟨c, none⟩ ∧ BlockRun s u ∧ c ≠ .refused := by
  have h := BlockRun.res .tx index s
  unfold loadFrame
  cases resolve s.params .tx index with
  | none => exact ⟨_, _, rfl, h, by simp⟩
  | some blk =>
    refine ⟨_, _, rfl, (h.trans (.enc _ _ _)).trans (.wrvAll _ _), ?_⟩
    rcases wrvAllCode_cases (loadWrites blk f) (encOp f.id f.isExtended (resOp .tx index s)) with hc | hc <;> simp [hc]

/-- The state of READFRAME before its result, on a valid buffer. -/
theorem readBlock_run (index : Byte) (blk : RegisterBlock) (c : Byte) (s : State) :
    ∃ (u : State) (img : IdImage) (remote : Bool) (dlc : Byte) (as : List Byte) (v : State),
      readBlock index blk c s = u.finish ⟨.ok, some
        { id := imageId img, isExtended := imageExt img, isRemoteFrame := remote, dataLength := dlcLength dlc,
          data := frameData (rdrAllBytes as v) }⟩ ∧
      as.length = min (dlcLength dlc) 8 ∧ BlockRun s u := by
  refine ⟨_, _, _, _, _, _, rfl, ?_, ?_⟩
  · simp [readIndices_eq, dataIndices]
  · exact (BlockRun.rdr _ _).trans <| (BlockRun.rdrAll _ _).trans <| (BlockRun.dec _ _).trans <|
      (BlockRun.rdr _ _).trans <| (BlockRun.rdrAll _ _).trans (BlockRun.mbv _ _ _ _)

/-- Every answer of READFRAME: it is never refused, since an RX block has its CTRL. -/
theorem readFrame_eq (index : Byte) (s : State) :
    (resolve s.params .rx index = none ∧ readFrame index s =
      .next ((resOp .rx index s).drew.finish ⟨.invalid, some (Config.unspecifiedFrame s.draws)⟩)) ∨
    (∃ blk c, resolve s.params .rx index = some blk ∧ blk.ctrlAddr = some c ∧
      readFrame index s = .next (readBlock index blk c (resOp .rx index s))) := by
  unfold readFrame
  cases h : resolve s.params .rx index with
  | none => exact .inl ⟨rfl, rfl⟩
  | some blk =>
    have hc := resolve_ctrl _ h
    simp only [] at hc
    exact .inr ⟨blk, _, rfl, hc, by simp only [blockAddr, hc]⟩

/-! ## The invariant, by what a step is made of -/

theorem inv_run {s t : State} (b : BlockRun s t) (hi : s.ras.phase = .idle) (h : s.inv = true) : t.inv = true := by
  have ht := b.idle hi
  simp only [State.inv, Bool.and_eq_true] at h ⊢
  obtain ⟨⟨⟨⟨-, h3⟩, h4⟩, h5⟩, h6⟩ := h
  exact ⟨⟨⟨⟨⟨by simp [Ras.wf, ht], by simp [State.readbackNext, ht]⟩, b.params ▸ b.formats h3⟩, b.shapes h4⟩,
    b.results ▸ h5⟩, b.memWf h6⟩

theorem inv_finish {s : State} {r : ClientResult} (h : s.inv = true) (hr : r.shapeOk = true) : (s.finish r).inv = true := by
  simp only [State.inv, Bool.and_eq_true, State.readbackNext] at h ⊢
  simp [h, hr]

theorem inv_respond {s : State} {r : Response} (h : s.inv = true) (hr : r.shapeOk = true) : (s.respond r).inv = true := by
  simp only [State.inv, Bool.and_eq_true, State.readbackNext] at h ⊢
  simp [h, hr]

/-! ## One step -/

/-- What one step can do: every way to a next state. -/
inductive StepTo (s : State) : State → Prop where
  | stay : s.ras.phase = .idle → s.host = [] → StepTo s s
  | wait {h} : s.ras.phase = .idle → s.host = .wait :: h → StepTo s (s.withHost h)
  | command {w h i} : s.ras.phase = .idle → (s.host = .command w :: h) → decode w = .instr i →
      StepTo s (instrOp i (s.withHost h))
  | undefined {w h why} : s.ras.phase = .idle → (s.host = .command w :: h ∨ s.host = .present w :: h) →
      decode w = .reject why → StepTo s (refuseCommand (s.withHost h))
  | acceptRdr {w h a} : s.ras.phase = .idle → s.host = .present w :: h → decode w = .instr (.rdr a) →
      StepTo s (acceptRdr a (s.withHost h))
  | acceptWrv {w h a v} : s.ras.phase = .idle → s.host = .present w :: h → decode w = .instr (.wrv a v) →
      StepTo s (acceptWrv a v (s.withHost h))
  | acceptMbv {w h a m v} : s.ras.phase = .idle → s.host = .present w :: h → decode w = .instr (.mbv a m v) →
      StepTo s (acceptMbv a m v (s.withHost h))
  | presentEnc {w h id ext} : s.ras.phase = .idle → s.host = .present w :: h → decode w = .instr (.enc id ext) →
      StepTo s (encOp id ext (s.withHost h))
  | presentDec {w h a b c d} : s.ras.phase = .idle → s.host = .present w :: h → decode w = .instr (.dec a b c d) →
      StepTo s (decOp ⟨a, b, c, d⟩ (s.withHost h))
  | presentRes {w h k n} : s.ras.phase = .idle → s.host = .present w :: h → decode w = .instr (.res k n) →
      StepTo s (resOp k n (s.withHost h))
  | line {l h i} : s.ras.phase = .idle → s.host = .line l :: h → l.assemble s.params = some i →
      StepTo s (instrOp i (s.withHost h))
  | blockReset {h} : s.host = .blockReset :: h → StepTo s (blockReset (s.withHost h))
  | swmode {mode h} : s.ras.phase = .idle → s.host = .swmode mode :: h → StepTo s (swmode mode (s.withHost h))
  | reset {h} : s.ras.phase = .idle → s.host = .reset :: h → StepTo s (resetPeripheral (s.withHost h))
  | loadFrame {n f h} : s.ras.phase = .idle → s.host = .loadFrame n f :: h → StepTo s (loadFrame n f (s.withHost h))
  | readInvalid {n h} : s.ras.phase = .idle → s.host = .readFrame n :: h → resolve s.params .rx n = none →
      StepTo s ((resOp .rx n (s.withHost h)).drew.finish ⟨.invalid, some (Config.unspecifiedFrame s.draws)⟩)
  | readFrame {n h blk c} : s.ras.phase = .idle → s.host = .readFrame n :: h → resolve s.params .rx n = some blk →
      blk.ctrlAddr = some c → StepTo s (readBlock n blk c (resOp .rx n (s.withHost h)))
  | reqTx {a b c h} : s.ras.phase = .idle → s.host = .reqTx a b c :: h → (a || b || c) = true →
      StepTo s (((s.withHost h).log (tRts (rtsByte s.params a b c))).finish ⟨.ok, none⟩)
  | tick {h} : s.ras.phase ≠ .idle → ¬(s.ras.phase = .readback ∧ s.ras.op = .rdr) → (h = s.host ∨ s.host = .wait :: h) →
      StepTo s (rasStep (s.withHost h))

theorem withHost_self (s : State) : s.withHost s.host = s := rfl

/-- The row of the step relation, where there is one. -/
theorem rasTick_next {s t : State} (hp : s.ras.phase ≠ .idle) (h : rasTick s = .next t) :
    t = rasStep s ∧ ¬(s.ras.phase = .readback ∧ s.ras.op = .rdr) := by
  cases h1 : s.ras.phase <;> cases h2 : s.ras.op <;> simp_all [rasTick]

/-- Every next state a step can lead to. -/
theorem step_cases {s t : State} (h : step s = .next t) : StepTo s t := by
  by_cases hi : s.ras.phase = .idle
  · rw [step_idle hi, idleStep] at h
    split at h <;> rename_i hh
    · cases h; exact .stay hi hh
    · rename_i w r
      cases hd : decode w <;> simp only [runCommand, hd] at h
      · rw [exec_idle (by simpa using hi)] at h; cases h; exact .command hi hh hd
      · cases h; exact .undefined hi (.inl hh) hd
    · rename_i w r
      cases hd : decode w <;> simp only [presentCommand, hd] at h
      · rename_i i
        cases i <;> simp only [acceptInstr] at h <;> try rw [exec_idle (by simpa using hi)] at h
        all_goals cases h
        · exact .acceptRdr hi hh hd
        · exact .acceptWrv hi hh hd
        · exact .acceptMbv hi hh hd
        · exact .presentEnc hi hh hd
        · exact .presentDec hi hh hd
        · exact .presentRes hi hh hd
      · cases h; exact .undefined hi (.inr hh) hd
    · rename_i l r
      simp only [runLine] at h
      split at h
      · rename_i i hl; rw [exec_idle (by simpa using hi)] at h; cases h; exact .line hi hh hl
      · cases h
    · cases h; exact .wait hi hh
    · cases h; exact .blockReset hh
    · cases h; exact .swmode hi hh
    · cases h; exact .reset hi hh
    · cases h; exact .loadFrame hi hh
    · rename_i n r
      rcases readFrame_eq n (s.withHost r) with ⟨hn, he⟩ | ⟨blk, c, hr, hc, he⟩ <;> rw [he] at h <;> cases h
      · exact .readInvalid hi hh hn
      · exact .readFrame hi hh hr hc
    · simp only [reqTx] at h
      split at h <;> cases h
      exact .reqTx hi hh ‹_›
  · rw [step_busy hi, busyStep] at h
    split at h <;> rename_i hh
    · cases h; exact .blockReset hh
    · obtain ⟨rfl, hn⟩ := rasTick_next (by simpa using hi) h
      exact .tick hi (by simpa using hn) (.inr hh)
    · obtain ⟨rfl, hn⟩ := rasTick_next hi h
      exact .tick (h := s.host) hi hn (.inl rfl)

end Sys2Proof.Machine
end

