-- ==== Sys2Proof/Tests/Slice0.lean ====
section
/-! SUPPORT. The model's own tests: well-formedness smoke tests, decoding of words written out from 30_encoding.md R79 to R81, and
vectors of 95_test_vectors.md (named in each comment), each one step on a small state. -/

namespace Sys2Proof.Tests

open Sys2Proof.Machine

/-- The state after a step that answers one. -/
def after (o : Host.Outcome State Fault Refusal) : Option State :=
  match o with
  | .next s => some s
  | .fault _ => none
  | .refused _ => none

/-- The idle block over an oracle that returns these bytes. -/
def scripted (bs : List Byte) : State := { State.reset with script := bs }

/-- The state after one step that starts with the host's move `m`. -/
def stepOn (m : HostInput) (s : State) : Option State := after (step (s.withHost [m]))

/-- The last response, as a word (30_encoding.md R83). -/
def lastRsp (o : Option State) : Option RspWord := o.bind fun s => s.responses.getLast?.map Response.word

/-- The response word of one command word over these oracle bytes. -/
def rspOf (w : Nat) (bs : List Byte) : Option RspWord := lastRsp (after (step ((scripted bs).withFetchWord 48 w)))

/-- The last result of a client sequence. -/
def lastResult (o : Option State) : Option ClientResult := o.bind fun s => s.results.getLast?

/-! ## Well-formedness: an ill-formed term for each check -/

theorem test_params_default_wf : Params.default.wf = true := by decide
theorem test_params_same_instr : (Params.wf { Params.default with instrWrite := 0x03 }) = false := by decide
theorem test_params_addr_outside : (Params.wf { Params.default with addrStatus := 0x7E }) = false := by decide
theorem test_params_block_outside : (Params.wf { Params.default with rxSidh := #v[0x61, 0x72] }) = false := by decide
theorem test_params_blocks_overlap : (Params.wf { Params.default with txSidh := #v[0x31, 0x3D, 0x51] }) = false := by decide
theorem test_params_masks_equal : (Params.wf { Params.default with rxPendingMask := #v[1, 1] }) = false := by decide
theorem test_params_mask_two_bits : (Params.wf { Params.default with rxRemoteMask := 0x0C }) = false := by decide
theorem test_params_rts_equal : (Params.wf { Params.default with instrRts := #v[0x81, 0x81, 0x81] }) = false := by decide
theorem test_params_rts_zero : (Params.wf { Params.default with instrRts := #v[0x81, 0x82, 0x80] }) = false := by decide
theorem test_params_rts_two_bits : (Params.wf { Params.default with instrRts := #v[0x81, 0x82, 0x8C] }) = false := by decide
theorem test_params_rts_bare_flags : (Params.wf { Params.default with instrRts := #v[0x01, 0x02, 0x04] }) = true := by decide
theorem test_params_modes_equal : (Params.wf { Params.default with modeSleep := 4 }) = false := by decide
theorem test_id_standard_limit : idInRange 0x7FF false = true ∧ idInRange 0x800 false = false := by decide
theorem test_id_extended_limit : idInRange 0x1FFFFFFF true = true ∧ idInRange 0x20000000 true = false := by decide
theorem test_frame_too_long : CanFrame.wf ⟨0, false, false, 9, #v[0, 0, 0, 0, 0, 0, 0, 0]⟩ = false := by decide
theorem test_memory_not_rising : Memory.wf [(2, 1), (1, 1)] = false := by decide
theorem test_memory_lists_zero : Memory.wf [(2, 0)] = false := by decide
theorem test_instr_wf : (Instr.enc 0xFFFFFFFF false).wf = true ∧ (Instr.enc 0xFFFFFFFF false).idOk = false := by decide

/-! ## Decoding: words written out field by field from 30_encoding.md R80, R81 -/

/-- RDR 0x0E: opcode 0x11, zeros, addr, zeros. -/
theorem test_decode_rdr : decode 0b00010001_0000000000000000_00001110_00000000_00000000#48 = .instr (.rdr 0x0E) := by decide
/-- WRV 0x36, 0xA5: opcode 0x12, zeros, addr, zero mask, value. -/
theorem test_decode_wrv : decode 0b00010010_0000000000000000_00110110_00000000_10100101#48 = .instr (.wrv 0x36 0xA5) := by
  decide
/-- MBV 0x0F, 0xE0, 0x9F: opcode 0x13, zeros, addr, mask, value. -/
theorem test_decode_mbv : decode 0b00010011_0000000000000000_00001111_11100000_10011111#48 = .instr (.mbv 0x0F 0xE0 0x9F) := by
  decide
/-- ENC 0x12345678, ext: opcode 0x21, seven zeros, ext, id. -/
theorem test_decode_enc : decode 0b00100001_0000000_1_00010010001101000101011001111000#48 = .instr (.enc 0x12345678 true) := by
  decide
/-- DEC 91 A8 56 78: opcode 0x22, eight zeros, the four bytes. -/
theorem test_decode_dec :
    decode 0b00100010_00000000_10010001_10101000_01010110_01111000#48 = .instr (.dec 0x91 0xA8 0x56 0x78) := by decide
/-- RES RX, 2: opcode 0x31, 31 zeros, kind, index. -/
theorem test_decode_res :
    decode 0b00110001_0000000000000000000000000000000_1_00000010#48 = .instr (.res .rx 2) := by decide

/-- 95_test_vectors.md V1 to V8, and why each is undefined. -/
theorem test_decode_undefined :
    [0x000000000000#48, 0x140000000000#48].map decode = [.reject .undefinedOpcode, .reject .undefinedOpcode] ∧
    ([0x1100000E0001#48, 0x12000036FFA5#48, 0x130100000000#48, 0x210200000000#48, 0x310000000200#48, 0x220100000000#48].all
      fun w => decode w == .reject .nonzeroReserved) = true := by decide

/-- The encoder gives the vectors' words (A1, W1, M6, E20, X16, B6). -/
theorem test_encode_words :
    [encode (.rdr 0x0E), encode (.wrv 0x36 0xA5), encode (.mbv 0x0F 0xE0 0x9F), encode (.enc 0x12345678 true),
      encode (.dec 0x91 0xA8 0x56 0x78), encode (.res .rx 0)] =
    [0x1100000E0000#48, 0x1200003600A5#48, 0x1300000FE09F#48, 0x210112345678#48, 0x220091A85678#48, 0x310000000100#48] := by
  decide

/-- No two rows of the table overlap: some bit fixed in both has different values. -/
theorem test_rows_disjoint :
    opcodeRows.Pairwise fun r q => (r.value ^^^ q.value) &&& (r.mask &&& q.mask) ≠ 0 := by decide

theorem test_table_word : decodeTableWord 48 0x310000000101 = some (.res .rx 1) := by decide
theorem test_table_word_refused : decodeTableWord 48 0x310000000200 = none := by decide

/-! ## The block's operations, by word: 95_test_vectors.md 2.1 to 2.5 -/

/-- A2: the address is not checked. -/
theorem test_rdr_unchecked_address : rspOf 0x110000FF0000 [0x5A] = some 0x000000005A#40 := by decide
/-- A1: the trace. -/
theorem test_rdr_trace : (stepOn (.command 0x1100000E0000) (scripted [0x80])).map (·.trace) =
    some [⟨0x03, some 0x0E, [], [0x80]⟩] := by decide
/-- W1 and W3: one bit differs. -/
theorem test_wrv_codes : rspOf 0x1200003600A5 [0xA5] = some 0#40 ∧ rspOf 0x1200003600A5 [0xA4] = some 0x4000000000#40 := by
  decide
/-- W2: the trace; P4: ras_result and ras_rb stay. -/
theorem test_wrv_trace : (stepOn (.command 0x1200003600A5) (scripted [0x00])).map (fun t => (t.trace, t.ras)) =
    some ([⟨0x02, some 0x36, [0xA5], []⟩, ⟨0x03, some 0x36, [], [0x00]⟩],
      ⟨.idle, .wrv, 0x36, 0xFF, 0xA5, 0x00, .fail⟩) := by decide
/-- M1, M2, M5: the compare is under the mask. -/
theorem test_mbv_codes : rspOf 0x1300000FE080 [0x87] = some 0#40 ∧ rspOf 0x1300000FE080 [0x07] = some 0x4000000000#40 ∧
    rspOf 0x1300002C00FF [0x5A] = some 0#40 := by decide
/-- M6: the value is sent as given, the mask before it. -/
theorem test_mbv_trace : (stepOn (.command 0x1300000FE09F) (scripted [0x80])).map (·.trace) =
    some [⟨0x05, some 0x0F, [0xE0, 0x9F], []⟩, ⟨0x03, some 0x0F, [], [0x80]⟩] := by decide
/-- E20 and E3. -/
theorem test_enc_words : rspOf 0x210112345678 [] = some 0x0091A85678#40 ∧ rspOf 0x210000000123 [] = some 0x0024600000#40 := by
  decide
/-- E2, E7, E9, E14, E16, E17, E23, E25: where single bits land, and what is dropped. -/
theorem test_enc_bits : [encodeId 0x1 false, encodeId 0x7E8 false, encodeId 0x800 false, encodeId 0x30000 true, encodeId 0x40000 true,
      encodeId 0x200000 true, encodeId 0x1FFFFFFF true, encodeId 0xFFFFFFFF true] =
    [⟨0x00, 0x20, 0, 0⟩, ⟨0xFD, 0x00, 0, 0⟩, ⟨0, 0, 0, 0⟩, ⟨0, 0x0B, 0, 0⟩, ⟨0, 0x28, 0, 0⟩, ⟨1, 8, 0, 0⟩,
      ⟨0xFF, 0xEB, 0xFF, 0xFF⟩, ⟨0xFF, 0xEB, 0xFF, 0xFF⟩] := by decide
/-- X16 and X3. -/
theorem test_dec_words : rspOf 0x220091A85678 [] = some 0x0112345678#40 ∧ rspOf 0x220024600000 [] = some 0x0000000123#40 := by
  decide
/-- X4, X6, X9, X11, X14, X15, X19: ignored bits, and bit 3 of sidl alone chooses the branch. -/
theorem test_dec_bits :
    ([⟨0x80, 0, 0, 0⟩, ⟨0xFF, 0xF7, 0xFF, 0xFF⟩, ⟨0, 3, 0x12, 0x34⟩, ⟨0xAA, 0x53, 0xCC, 0x33⟩, ⟨0x12, 0x3C, 0x56, 0x78⟩,
      ⟨0xAA, 0x5B, 0xCC, 0x33⟩, ⟨0xFF, 0xFF, 0xFF, 0xFF⟩].map fun img => (imageId img, imageExt img)) =
    [(0x400, false), (0x7FF, false), (0, false), (0x552, false), (0x02445678, true), (0x154BCC33, true), (0x1FFFFFFF, true)] := by
  decide
/-- B1 to B9, by command and response word. -/
theorem test_res_words : [rspOf 0x310000000000 [], rspOf 0x310000000001 [], rspOf 0x310000000002 [], rspOf 0x310000000003 [],
      rspOf 0x3100000000FF [], rspOf 0x310000000100 [], rspOf 0x310000000101 [], rspOf 0x310000000102 [], rspOf 0x3100000001FF []] =
    [some 0x31, some 0x41, some 0x51, some 0x8000000000, some 0x8000000000, some 0x16061, some 0x17071, some 0x8000000000,
      some 0x8000000000] := by decide
/-- 95_test_vectors.md 2.3: TX2.DLC, TX2.D7, RX1.D0, RX1.D7, RX0.CTRL; TX0.CTRL is undefined. -/
theorem test_field_addresses : ([.field .tx 2 (.common .dlc), .field .tx 2 (.common (.data 7)), .field .rx 1 (.common (.data 0)),
      .field .rx 1 (.common (.data 7)), .field .rx 0 .ctrl, .field .tx 0 .ctrl, .addrIntflag].map (AddrOperand.eval Params.default)) =
    [some 0x55, some 0x5D, some 0x76, some 0x7D, some 0x60, none, some 0x2C] := by decide
/-- V5: an undefined command is refused and nothing else happens. -/
theorem test_undefined_command : (stepOn (.command 0x130100000000) (scripted [])).map (fun t => (t.responses.map Response.word, t.trace)) =
    some ([0xC000000000#40], []) := by decide

/-! ## The step relation of the RAS, and block reset -/

/-- 41_register_access.md R104: an accepted WRV is in PRIMARY with its operands latched, and no transaction issued. -/
theorem test_present_wrv : (stepOn (.present 0x1200003600A5) (scripted [0x00])).map (fun t => (t.ras.phase, t.ras.op, t.ras.mask, t.trace)) =
    some (.primary, .wrv, 0xFF, []) := by decide
/-- 41_register_access.md R104: PRIMARY of an MBV issues the bit-modify and goes to READBACK. -/
theorem test_primary_mbv :
    (after (step { scripted [] with ras := ⟨.primary, .mbv, 0x2C, 0x01, 0x00, 0, .ok⟩ })).map (fun t => (t.ras.phase, t.trace)) =
    some (.readback, [⟨0x05, some 0x2C, [0x01, 0x00], []⟩]) := by decide
/-- 70_reset_and_hazards.md R210: a reset in READBACK gives no response and issues nothing. -/
theorem test_block_reset : (stepOn .blockReset { scripted [] with ras := ⟨.readback, .wrv, 1, 0xFF, 2, 0, .ok⟩ }).map
    (fun t => (t.ras.phase, t.trace, t.responses)) = some (.idle, [], []) := by decide

/-! ## The client sequences: 95_test_vectors.md 2.6 -/

/-- Q4: STATUS bits 4:0 are discarded. -/
theorem test_swmode_ok : (stepOn (.swmode .sleep) (scripted [0x27, 0x2E])).map (fun t => (t.results, t.trace)) =
    some ([⟨.ok, none⟩], [⟨0x05, some 0x0F, [0xE0, 0x20], []⟩, ⟨0x03, some 0x0F, [], [0x27]⟩, ⟨0x03, some 0x0E, [], [0x2E]⟩]) := by
  decide
/-- Q3: the peripheral still reports Config. -/
theorem test_swmode_fail : lastResult (stepOn (.swmode .normal) (scripted [0x07, 0x80])) = some ⟨.fail, none⟩ := by decide
/-- Q6. -/
theorem test_reset_instruction : (stepOn .reset (scripted [])).map (fun t => (t.results, t.trace, t.pulses)) =
    some ([⟨.ok, none⟩], [⟨0xC0, none, [], []⟩], 0) := by decide
/-- Q7: the pin variant issues no transaction. -/
theorem test_reset_pin : (stepOn .reset { scripted [] with params := { Params.default with resetVariant := .pin } }).map
    (fun t => (t.results, t.trace, t.pulses)) = some ([⟨.ok, none⟩], [], 1) := by decide
/-- Q14: the bytes LOADFRAME writes. -/
theorem test_load_bytes : (loadWrites ⟨0x51, none⟩ ⟨0x7FF, false, true, 0, #v[1, 2, 3, 4, 5, 6, 7, 8]⟩) =
    [(0x51, 0xFF), (0x52, 0xE0), (0x53, 0), (0x54, 0), (0x55, 0x40), (0x56, 0), (0x57, 0), (0x58, 0), (0x59, 0), (0x5A, 0),
      (0x5B, 0), (0x5C, 0), (0x5D, 0)] := by decide
/-- Q15: one read-back differs; all 26 transactions are issued. -/
theorem test_load_fail : (stepOn (.loadFrame 0 ⟨0x1FFFFFFF, true, false, 8, #v[1, 2, 3, 4, 5, 6, 7, 8]⟩)
      (scripted [0xFF, 0xE3, 0xFF, 0xFF, 0x08, 1, 2, 3, 4, 5, 6, 7, 8])).map (fun t => (t.results, t.trace.length)) =
    some ([⟨.fail, none⟩], 26) := by decide
/-- Q12: Invalid, no bus traffic. -/
theorem test_load_invalid : (stepOn (.loadFrame 3 ⟨0, false, false, 0, #v[0, 0, 0, 0, 0, 0, 0, 0]⟩) (scripted [])).map
    (fun t => (t.results, t.trace)) = some ([⟨.invalid, none⟩], []) := by decide
/-- P1: the frame in the ideal peripheral's registers, with its padding. -/
theorem test_load_ideal : (stepOn (.loadFrame 0 ⟨0x123, false, false, 5, #v[0x11, 0x22, 0x33, 0x44, 0x55, 0xAA, 0xBB, 0xCC]⟩)
      { scripted [] with periph := .ideal }).map (fun t => (t.results, t.mem)) =
    some ([⟨.ok, none⟩], [(0x31, 0x24), (0x32, 0x60), (0x35, 0x05), (0x36, 0x11), (0x37, 0x22), (0x38, 0x33), (0x39, 0x44),
      (0x3A, 0x55)]) := by decide
/-- Q17: the length is not clamped, eight data registers are read. -/
theorem test_read_unclamped : (stepOn (.readFrame 1) (scripted [0x08, 0xFF, 0xFF, 0xFF, 0xFF, 0x4F, 1, 2, 3, 4, 5, 6, 7, 8, 0])).map
    (fun t => (t.results, t.trace.length)) =
    some ([⟨.ok, some ⟨0x1FFFFFFF, true, true, 15, #v[1, 2, 3, 4, 5, 6, 7, 8]⟩⟩], 16) := by decide
/-- P2: stale bytes never reach the frame; buffer 0's flag is cleared, buffer 1's is not. -/
theorem test_read_ideal : (stepOn (.readFrame 0) { scripted [] with periph := .ideal, mem := [(0x2C, 3), (0x61, 0xC6), (0x62, 0xCA),
      (0x63, 0xF1), (0x64, 0x10), (0x65, 3), (0x66, 0xDE), (0x67, 0xAD), (0x68, 0xBE), (0x69, 0xFF)] }).map
    (fun t => (t.results, Memory.read t.mem 0x2C, t.trace.length)) =
    some ([⟨.ok, some ⟨0x18DAF110, true, false, 3, #v[0xDE, 0xAD, 0xBE, 0, 0, 0, 0, 0]⟩⟩], 2, 11) := by decide
/-- Q9. -/
theorem test_req_tx : (stepOn (.reqTx true false true) (scripted [])).map (fun t => (t.results, t.trace)) =
    some ([⟨.ok, none⟩], [⟨0x85, none, [], []⟩]) := by decide

/-! ## Witnesses: for each statement with hypotheses, states and operands that meet them, at the boundary of each clause -/

/-- The idle block whose host makes these moves. -/
def hosted (h : List HostInput) : State := State.reset.withHost h

/-- A WRV in the middle: written, not yet read back. -/
def midWrv : State :=
  { scripted [0xA5] with ras := ⟨.readback, .wrv, 0x36, 0xFF, 0xA5, 0, .ok⟩, trace := [tWrite Params.default 0x36 0xA5] }

/-- An operation accepted and not yet begun. -/
def accepted (op : RasOp) : State := { scripted [0x80] with ras := ⟨.primary, op, 0x2C, 0xFF, 0x01, 0, .ok⟩ }

/-- The idle block in front of the ideal peripheral. -/
def idealState : State := { State.reset with periph := .ideal, mem := [(0x2C, 0x03)] }

/-- A frame with every field at its greatest. -/
def fullFrame : CanFrame := ⟨0x1FFFFFFF, true, true, 8, #v[1, 2, 3, 4, 5, 6, 7, 8]⟩

theorem test_witness_DecodedWordIsTheEncoding : decode 0x310000000102#48 = .instr (.res .rx 2) := by decide
theorem test_witness_UndefinedByOpcodeOrZeroBits :
    decode 0x000000000000#48 = .reject .undefinedOpcode ∧ decode 0x220100000000#48 = .reject .nonzeroReserved := by decide
theorem test_witness_UndefinedCommandIsRefused :
    (hosted [.command 0x140000000000]).ras.phase = .idle ∧ decode 0x140000000000#48 = .reject .undefinedOpcode ∧
      (hosted [.present 0x1100000E0001]).host = [.present 0x1100000E0001] ∧
      decode 0x1100000E0001#48 = .reject .nonzeroReserved := by decide
theorem test_witness_StepRunsTheDecodedCommand :
    (hosted [.command 0x1100000E0000]).ras.phase = .idle ∧ decode 0x1100000E0000#48 = .instr (.rdr 0x0E) := by decide
theorem test_witness_AssemblerLineRuns :
    (hosted [.line (.rdr (.field .rx 1 .ctrl))]).ras.phase = .idle ∧
      AsmLine.assemble Params.default (.rdr (.field .rx 1 .ctrl)) = some (.rdr 0x70) ∧
      AsmLine.assemble Params.default (.wrv (.field .tx 2 .ctrl) 0) = none ∧
      some 0x51#8 = Params.default.txSidh[(2#8).toNat]? ∧ some 0x71#8 = Params.default.rxSidh[(1#8).toNat]? ∧
      (2#8).toNat < 3 := by decide
theorem test_witness_NameOfNoBufferIsRefused : (hosted [.line (.rdr (.field .tx 3 .ctrl))]).ras.phase = .idle ∧
    3 ≤ (3#8).toNat ∧ 2 ≤ (2#8).toNat := by decide
theorem test_witness_RdrReadsOneRegister : (scripted [0x80]).ras.phase = .idle ∧ (scripted [0x80]).busAnswer 0x0E = 0x80 := by
  decide
theorem test_witness_WrvWritesThenVerifies : (scripted [0xA5]).ras.phase = .idle ∧
    (memWrite 0x36 0xA5 (scripted [0xA5])).busAnswer 0x36 = 0xA5 ∧ (memWrite 0x36 0xA5 (scripted [0xA4])).busAnswer 0x36 ≠ 0xA5 := by
  decide
theorem test_witness_MbvModifiesThenVerifies : (scripted [0x87]).ras.phase = .idle ∧
    (memBitMod 0x0F 0xE0 0x80 (scripted [0x87])).busAnswer 0x0F &&& 0xE0 = 0x80 &&& 0xE0 ∧
    (memBitMod 0x0F 0xE0 0x80 (scripted [0x07])).busAnswer 0x0F &&& 0xE0 ≠ 0x80 &&& 0xE0 := by decide
theorem test_witness_RasTransactionsAreFixed : (∃ t, exec (.rdr 0) (scripted [1]) = .next t) ∧
    (∃ t, exec (.wrv 0 1) (scripted [1]) = .next t) ∧ ∃ t, exec (.mbv 0 1 1) (scripted [1]) = .next t :=
  ⟨⟨_, rfl⟩, ⟨_, rfl⟩, ⟨_, rfl⟩⟩
theorem test_witness_RasOperationsFrame : (∃ t, exec (.mbv 0x2C 1 0) (scripted [2]) = .next t) ∧
    (∃ t, exec (.mbv 0x2C 1 0) idealState = .next t) ∧ (scripted [2]).periph = .oracle ∧ idealState.periph = .ideal :=
  ⟨⟨_, rfl⟩, ⟨_, rfl⟩, rfl, rfl⟩
theorem test_witness_AcceptanceLatchesOperands : (hosted [.present 0x1100000E0000]).ras.phase = .idle ∧
    decode 0x1100000E0000#48 = .instr (.rdr 0x0E) ∧ decode 0x1200003600A5#48 = .instr (.wrv 0x36 0xA5) ∧
    decode 0x1300000FE09F#48 = .instr (.mbv 0x0F 0xE0 0x9F) := by decide
theorem test_witness_RasStepRows : ([accepted .rdr, accepted .wrv, accepted .mbv, midWrv].all fun s => s.host == []) = true ∧
    (midWrv.withHost [.wait]).host = [.wait] ∧ (hosted [.wait]).ras.phase = .idle ∧ (accepted .mbv).ras.phase = .primary ∧ midWrv.ras.phase = .readback ∧ midWrv.ras.op ≠ .rdr := by decide
theorem test_witness_BigStepEqualsSmallSteps : (scripted [0xA5]).ras.phase = .idle ∧
    decode 0x1200003600A5#48 = .instr (.wrv 0x36 0xA5) ∧
    (∀ m ∈ ([.command 0x310000000000#48] : List HostInput).head?, m ≠ .blockReset ∧ m ≠ .wait) ∧
    (∀ m ∈ ([] : List HostInput).head?, m ≠ .blockReset ∧ m ≠ .wait) := by decide
theorem test_witness_AcceptedOperationFinishes : ([accepted .rdr, accepted .wrv, accepted .mbv, midWrv].all fun s =>
    s.ras.wf && s.ras.phase != .idle && s.host == []) = true := by decide
theorem test_witness_BusyBlockTakesNoCommand : midWrv.ras.phase ≠ .idle ∧ (accepted .rdr).ras.phase ≠ .idle := by decide
theorem test_witness_BusyBlockIgnoresTheHost : midWrv.ras.phase ≠ .idle ∧
    (∃ t, step (midWrv.withHost [.command 0x1100000E0000]) = .next t) ∧ ∃ t, step (midWrv.withHost [.swmode .sleep]) = .next t :=
  ⟨by decide, ⟨_, rfl⟩, ⟨_, rfl⟩⟩
theorem test_witness_BlockResetAbandons : (midWrv.withHost [.blockReset]).host = [.blockReset] ∧
    (hosted [.blockReset]).host = [.blockReset] := by decide
theorem test_witness_OldLatchesAreUnobservable :
    (⟨.idle, .mbv, 0x2C, 0x01, 0xFF, 0x5A, .fail⟩ : Ras).phase = .idle ∧ ∃ t, exec (.wrv 0x36 0xA5) (scripted [0xA5]) = .next t :=
  ⟨rfl, _, rfl⟩
theorem test_witness_ReadByteIsFree : (scripted []).ras.phase = .idle ∧ (scripted []).periph = .oracle := by decide
theorem test_witness_IdealPeripheralVerifies : idealState.ras.phase = .idle ∧ idealState.periph = .ideal ∧
    Memory.wf idealState.mem = true := by decide
theorem test_witness_EncRespondsWithTheImage : ∃ t t', exec (.enc 0x12345678 true) State.reset = .next t ∧
    exec (.enc 0x123 false) State.reset = .next t' := ⟨_, _, rfl, rfl⟩
theorem test_witness_DecRespondsWithTheIdentifier : State.reset.ras.phase = .idle ∧ (0xA8 : Byte).getLsbD 3 = true ∧
    (0xF7 : Byte).getLsbD 3 = false := by decide
theorem test_witness_DecodeAfterEncodeIsIdentity : (0x1FFFFFFF#32).toNat < 2 ^ 29 ∧ (0x7FF#32).toNat < 2 ^ 11 := by decide
theorem test_witness_EncodeAfterDecodeClearsIgnoredBits : idInRange 0x1FFFFFFF true = true ∧ idInRange 0x7FF false = true ∧
    encodeId 0x1FFFFFFF true = encodeId 0x1FFFFFFF true := by decide
theorem test_witness_BitThreeOfSidlChoosesTheBranch : State.reset.ras.phase = .idle ∧ (0x60 : Byte).getLsbD 3 = false ∧
    (0x77 : Byte) &&& 0xE8#8 = 0x60#8 &&& 0xE8#8 := by decide
theorem test_witness_CodecResultRanges : (⟨0xFF, 0xFF, 0xFF, 0xFF⟩ : IdImage).sidl.getLsbD 3 = true ∧
    (⟨0xFF, 0xF7, 0xFF, 0xFF⟩ : IdImage).sidl.getLsbD 3 = false := by decide
theorem test_witness_CodecIgnoresTheState : State.reset.ras.phase = .idle ∧
    (Instr.dec 1 2 3 4 = .enc 0 true ∨ Instr.dec 1 2 3 4 = .dec 1 2 3 4) := by decide
theorem test_witness_ResResolvesTheBuffers : State.reset.ras.phase = .idle ∧ (2#8).toNat < 3 ∧ (1#8).toNat < 2 ∧
    3 ≤ (3#8).toNat ∧ 2 ≤ (2#8).toNat ∧ (255#8).toNat ≥ 3 := by decide
theorem test_witness_InvalidIndexNeverReachesTheBus :
    (hosted [.loadFrame 3 fullFrame]).ras.phase = .idle ∧ 3 ≤ (3#8).toNat ∧ (hosted [.readFrame 2]).host = [.readFrame 2] ∧
      2 ≤ (2#8).toNat := by decide
theorem test_witness_BlockAddressesStayInTheMap : Params.default.wf = true ∧
    resolve Params.default .tx 2 = some ⟨0x51, none⟩ ∧ resolve Params.default .rx 1 = some ⟨0x71, some 0x70⟩ ∧
    Params.wf { Params.default with rxCtrlPlace := .above, rxSidh := #v[0x60, 0x70] } = true ∧
    resolve { Params.default with rxCtrlPlace := .above, rxSidh := #v[0x60, 0x70] } .rx 1 = some ⟨0x70, some 0x7D⟩ := by decide
theorem test_witness_BufferRegistersAreDistinct :
    AddrOperand.eval Params.default (.field .rx 0 .ctrl) = some 0x60 ∧
    AddrOperand.eval Params.default (.field .tx 2 (.common (.data 7))) = some 0x5D := by decide
theorem test_witness_SwmodeSequence : (hosted [.swmode .config]).ras.phase = .idle ∧
    modeField 0x80 = Params.default.modeCode .config ∧ modeField 0x60 ≠ Params.default.modeCode .config ∧
    (0x87 : Byte) &&& 0xE0#8 = 0x80#8 &&& 0xE0#8 := by decide
/-- SWMODE's third case is reached: STATUS shows the mode, the read-back of CONTROL did not. -/
theorem test_witness_swmode_third_case :
    swmodeOpen (modeField 0x80) (Params.default.modeCode .config) (mbvCode 0xE0 0x80 0x07) = true := by decide
theorem test_witness_ResetSequence : (hosted [.reset]).ras.phase = .idle ∧ (hosted [.reset]).host = [.reset] ∧
    (hosted [.reset]).params.resetVariant = .instruction := by decide
theorem test_witness_LoadFrameWritesThirteenRegisters : (hosted [.loadFrame 2 fullFrame]).ras.phase = .idle ∧
    (hosted []).params.txSidh[(2#8).toNat]? = some 0x51#8 := by decide
theorem test_witness_ReadFrameReadsTheBuffer : (hosted [.readFrame 1]).ras.phase = .idle ∧
    (hosted []).params.rxSidh[(1#8).toNat]? = some 0x71#8 ∧ (hosted []).params.rxPendingMask[(1#8).toNat]? = some 0x02#8 := by
  decide
theorem test_witness_ReqTxSendsOneByte : (hosted [.reqTx false false true]).ras.phase = .idle ∧
    (false || false || true) = true := by decide
theorem test_witness_RtsByteTellsTheFlags : Params.default.wf = true ∧
    rtsByte Params.default true false true = 0x85 ∧ rtsByte Params.default false false false = 0 := by decide
theorem test_witness_ReqTxWithoutFlagIsRefused : (hosted [.reqTx false false false]).ras.phase = .idle ∧
    (hosted [.reqTx false false false]).host = [.reqTx false false false] := by decide
theorem test_witness_ClientSequencesMemoryFrame : (∃ t, step (idealState.withHost [.swmode .sleep]) = .next t) ∧
    (∃ t, step (idealState.withHost [.loadFrame 2 fullFrame]) = .next t) ∧
    (∃ t, step (idealState.withHost [.readFrame 1]) = .next t) ∧ (∃ t, step (idealState.withHost [.reset]) = .next t) ∧
    (∃ t, step (idealState.withHost [.reqTx true false false]) = .next t) ∧ idealState.ras.phase = .idle :=
  ⟨⟨_, rfl⟩, ⟨_, rfl⟩, ⟨_, rfl⟩, ⟨_, rfl⟩, ⟨_, rfl⟩, rfl⟩
theorem test_witness_EveryStepKeepsTheInvariant : midWrv.inv = true ∧ (accepted .mbv).inv = true ∧ (∃ t, step midWrv = .next t) ∧
    ∃ t, step (accepted .mbv) = .next t := ⟨by decide, by decide, ⟨_, rfl⟩, ⟨_, rfl⟩⟩
theorem test_witness_InvariantStatesNeverFault : midWrv.inv = true ∧ idealState.inv = true := by decide
/-- The one state that faults does not meet the invariant. -/
theorem test_witness_fault_state : step { State.reset with ras := ⟨.readback, .rdr, 0, 0, 0, 0, .ok⟩ } = .fault .rasNoRow ∧
    Ras.wf ⟨.readback, .rdr, 0, 0, 0, 0, .ok⟩ = false := ⟨rfl, rfl⟩
theorem test_witness_OnlyTwoRefusalsInARun : (hosted [.reqTx false false false]).inv = true ∧
    step (hosted [.reqTx false false false]) = .refused .reqTxNoFlag ∧
    step (hosted [.line (.rdr (.field .tx 0 .ctrl))]) = .refused .undefinedAddress := ⟨by decide, rfl, rfl⟩
theorem test_witness_ResultCodeTable : (∃ t, exec (.res .tx 3) State.reset = .next t) ∧
    (∃ t, exec (.res .rx 1) State.reset = .next t) ∧ (∃ t, step (idealState.withHost [.loadFrame 0 fullFrame]) = .next t) ∧
    (∃ t, step (idealState.withHost [.loadFrame 3 fullFrame]) = .next t) ∧ (∃ t, step (hosted [.readFrame 2]) = .next t) ∧
    ∃ t, step (hosted [.command 0x140000000000]) = .next t :=
  ⟨⟨_, rfl⟩, ⟨_, rfl⟩, ⟨_, rfl⟩, ⟨_, rfl⟩, ⟨_, rfl⟩, ⟨_, rfl⟩⟩
theorem test_witness_RefusedOnlyForUndefinedCommands : ∃ t rs, step (hosted [.command 0x140000000000]) = .next t ∧
    t.responses = State.reset.responses ++ rs ∧ ∃ r ∈ rs, r.code = .refused :=
  ⟨_, [refusedResponse], rfl, rfl, refusedResponse, by simp, rfl⟩
theorem test_witness_HistoryOnlyGrows : (∃ t, step midWrv = .next t) ∧ ∃ t, step (hosted [.blockReset]) = .next t :=
  ⟨⟨_, rfl⟩, ⟨_, rfl⟩⟩
theorem test_witness_ParametersAreNeverWritten : ∃ t, step (hosted [.swmode .normal]) = .next t := ⟨_, rfl⟩
theorem test_witness_OnlyAcceptanceMakesTheBlockBusy : ∃ t, step (hosted [.present 0x1300000FE09F]) = .next t ∧
    (hosted [.present 0x1300000FE09F]).ras.phase = .idle ∧ t.ras.phase ≠ .idle := ⟨_, rfl, rfl, by decide⟩
theorem test_witness_TransactionCounts : (∃ t, step (hosted [.readFrame 1]) = .next t) ∧ (1#8).toNat < 2 ∧
    (∃ t, step (hosted [.loadFrame 2 fullFrame]) = .next t) ∧ (2#8).toNat < 3 ∧ (∃ t, step (hosted [.readFrame 2]) = .next t) ∧
    (∃ t, step (hosted [.present 0x310000000102]) = .next t) ∧ (∃ t, step (hosted [.reqTx true true true]) = .next t) ∧
    ∃ t, step (hosted [.command 0x310000000102]) = .next t :=
  ⟨⟨_, rfl⟩, by decide, ⟨_, rfl⟩, by decide, ⟨_, rfl⟩, ⟨_, rfl⟩, ⟨_, rfl⟩, ⟨_, rfl⟩⟩

end Sys2Proof.Tests
end

section
/-! SUPPORT. The family of 30_encoding.md: the fields of the bytes that hold an identifier (R71, R72) and of the DLC byte (R74),
each read back out of the byte the model composes. -/

namespace Sys2Proof.Proofs.Encoding

open Sys2Proof Sys2Proof.Machine

/-! ## The fields of `sidl`, the one image byte that packs several -/

section Sidl

variable (id : Ident)

theorem encodeId_ext_sidl_high : (encodeId id true).sidl.extractLsb' 5 3 = id.extractLsb' 18 3 := by
  rw [encodeId_ext_sidl]
  ext i hi
  interval_cases i <;> simp

/-- Between the two identifier fields stand the extended flag and a zero on each side of it. -/
theorem encodeId_ext_sidl_middle : (encodeId id true).sidl.getLsbD 4 = false ∧
    (encodeId id true).sidl.getLsbD 3 = true ∧ (encodeId id true).sidl.getLsbD 2 = false := by
  rw [encodeId_ext_sidl]
  refine ⟨?_, ?_, ?_⟩ <;> simp

theorem encodeId_ext_sidl_low : (encodeId id true).sidl.extractLsb' 0 2 = id.extractLsb' 16 2 := by
  rw [encodeId_ext_sidl]
  ext i hi
  interval_cases i <;> simp

theorem encodeId_std_sidl_high : (encodeId id false).sidl.extractLsb' 5 3 = id.extractLsb' 0 3 := by
  rw [encodeId_std_sidl]
  ext i hi
  interval_cases i <;> simp

theorem encodeId_std_sidl_low : (encodeId id false).sidl.extractLsb' 0 5 = 0#5 := by
  rw [encodeId_std_sidl]
  ext i hi
  interval_cases i <;> simp

end Sidl

/-! ## The DLC byte -/

section Dlc

variable (f : CanFrame)

/-- The remote flag, or-ed in at bit 6, leaves the length's nibble alone. -/
theorem dlcByte_nibble : (dlcByte f).extractLsb' 0 4 = (BitVec.ofNat 8 f.dataLength).extractLsb' 0 4 := by
  rw [dlcByte]
  generalize BitVec.ofNat 8 f.dataLength = len
  ext i hi
  cases f.isRemoteFrame <;> interval_cases i <;> simp

theorem dlcByte_nibble_toNat : ((dlcByte f).extractLsb' 0 4).toNat = f.dataLength % 16 := by
  rw [dlcByte_nibble, BitVec.extractLsb'_toNat, BitVec.toNat_ofNat, Nat.shiftRight_zero]
  exact Nat.mod_mod_of_dvd f.dataLength (by decide)

theorem dlcByte_remote : (dlcByte f).getLsbD 6 = f.isRemoteFrame := by
  rw [dlcByte]
  cases f.isRemoteFrame <;> simp

theorem dlcByte_top : (dlcByte f).getLsbD 7 = false := by
  rw [dlcByte]
  cases f.isRemoteFrame <;> simp

theorem dlcByte_middle : (dlcByte f).extractLsb' 4 2 = 0#2 := by
  rw [dlcByte]
  ext i hi
  cases f.isRemoteFrame <;> interval_cases i <;> simp

end Dlc

/-- Reading the length masks the byte to its low nibble. -/
theorem dlcLength_eq_nibble (v : Byte) : dlcLength v = (v.extractLsb' 0 4).toNat := by
  rw [dlcLength, BitVec.toNat_and, BitVec.extractLsb'_toNat]
  exact Nat.and_two_pow_sub_one_eq_mod v.toNat 4

/-! ## The obligations -/

/-- Settles O24: the outer bytes are slices of the identifier by definition, `sidl` field by field. -/
theorem extendedImageLayout : Obligations.ExtendedImageLayout := by
  intro id
  obtain ⟨h4, h3, h2⟩ := encodeId_ext_sidl_middle id
  exact ⟨encodeId_ext_sidh id, encodeId_ext_sidl_high id, h4, h3, h2, encodeId_ext_sidl_low id,
    encodeId_ext_eid8 id, encodeId_ext_eid0 id⟩

/-- Settles O25: as for the extended image, with the lower five bits of `sidl` and the last two bytes zero. -/
theorem standardImageLayout : Obligations.StandardImageLayout := fun id =>
  ⟨encodeId_std_sidh id, encodeId_std_sidl_high id, encodeId_std_sidl_low id, encodeId_std_eid8 id, encodeId_std_eid0 id⟩

/-- Settles O38: the byte's four fields as LOADFRAME composes them, and the one READFRAME looks at. -/
theorem dlcByteLayout : Obligations.DlcByteLayout := fun f v =>
  ⟨dlcByte_top f, dlcByte_remote f, dlcByte_middle f, dlcByte_nibble_toNat f, dlcLength_eq_nibble v⟩

end Sys2Proof.Proofs.Encoding
end

section
/-! SUPPORT. The family of 41_register_access.md: the layout the three RAS command words share (R81), the codes of the two verifying
operations (R102, R103), and the transactions the RAS may issue (R111). -/

namespace Sys2Proof.Proofs.RegisterAccess

open Sys2Proof Sys2Proof.Machine

/-! ## The words of the RAS -/

section Word

open BitVec (extractLsb'_append_eq_of_le extractLsb'_append_eq_left extractLsb'_append_eq_right)

variable (op addr mask value : Byte)

/-- The layout RDR, WRV and MBV share (30_encoding.md R81); an operand the command does not have is zero. -/
def rasWord : CmdWord := op ++ 0#16 ++ addr ++ mask ++ value

theorem encode_wrv : encode (.wrv addr value) = rasWord 0x12#8 addr 0#8 value := rfl

theorem encode_mbv : encode (.mbv addr mask value) = rasWord 0x13#8 addr mask value := rfl

/-- Each field is reached by dropping the fields below it. -/
theorem rasWord_fields :
    opcodeOf (rasWord op addr mask value) = op ∧ (rasWord op addr mask value).extractLsb' 24 16 = 0#16 ∧
      byteAt 16 (rasWord op addr mask value) = addr ∧ byteAt 8 (rasWord op addr mask value) = mask ∧
      byteAt 0 (rasWord op addr mask value) = value := by
  unfold opcodeOf byteAt rasWord
  refine ⟨?opcode, ?zero, ?addr, ?mask, extractLsb'_append_eq_right⟩
  case opcode =>
    rw [extractLsb'_append_eq_of_le, extractLsb'_append_eq_of_le, extractLsb'_append_eq_of_le,
      extractLsb'_append_eq_left] <;> decide
  case zero =>
    rw [extractLsb'_append_eq_of_le, extractLsb'_append_eq_of_le, extractLsb'_append_eq_of_le,
      extractLsb'_append_eq_right] <;> decide
  case addr => rw [extractLsb'_append_eq_of_le, extractLsb'_append_eq_of_le, extractLsb'_append_eq_right] <;> decide
  case mask => rw [extractLsb'_append_eq_of_le, extractLsb'_append_eq_right]; decide

end Word

/-! ## The codes of the verifying operations -/

theorem wrvCode_eq (value rb : Byte) : wrvCode value rb = if rb = value then .ok else .fail := by
  simp [wrvCode, okIf]

theorem mbvCode_eq (mask value rb : Byte) :
    mbvCode mask value rb = if rb &&& mask = value &&& mask then .ok else .fail := by
  simp [mbvCode, okIf]

/-! ## The transactions of the RAS -/

section Transactions

variable (p : Params) (addr mask value b : Byte)

/-- A transaction the RAS may issue to the register at `addr` (R111): a read, a write or a bit-modify. -/
def IsRegisterAccess (e : Transaction) : Prop :=
  e.addr = some addr ∧
    ((e.instr = p.instrRead ∧ e.payload = [] ∧ e.response.length = 1) ∨
      (e.instr = p.instrWrite ∧ e.payload.length = 1 ∧ e.response = []) ∨
      (e.instr = p.instrBitmod ∧ e.payload.length = 2 ∧ e.response = []))

theorem isRegisterAccess_tRead : IsRegisterAccess p addr (tRead p addr b) := ⟨rfl, .inl ⟨rfl, rfl, rfl⟩⟩

theorem isRegisterAccess_tWrite : IsRegisterAccess p addr (tWrite p addr value) := ⟨rfl, .inr (.inl ⟨rfl, rfl, rfl⟩)⟩

theorem isRegisterAccess_tBitmod : IsRegisterAccess p addr (tBitmod p addr mask value) :=
  ⟨rfl, .inr (.inr ⟨rfl, rfl, rfl⟩)⟩

end Transactions

/-! ## The obligations -/

/-- Settles O10: the word's fields, then latches, trace and response as the laws of `wrvOp` give them. -/
theorem wrvWritesThenVerifies : Obligations.WrvWritesThenVerifies := by
  intro addr value s hidle
  rw [encode_wrv]
  exact ⟨rasWord_fields _ _ _ _, wrvRb addr value s, wrvCode value (wrvRb addr value s),
    wrvOp addr value s, exec_idle hidle _, rfl, wrvCode_eq _ _, wrvOp_ras _ _ _, wrvOp_trace _ _ _, wrvOp_responses _ _ _⟩

/-- Settles O11: as for WRV, with the compare under the mask. -/
theorem mbvModifiesThenVerifies : Obligations.MbvModifiesThenVerifies := by
  intro addr mask value s hidle
  rw [encode_mbv]
  exact ⟨rasWord_fields _ _ _ _, mbvRb addr mask value s,
    mbvCode mask value (mbvRb addr mask value s), mbvOp addr mask value s, exec_idle hidle _, rfl, mbvCode_eq _ _ _,
    mbvOp_ras _ _ _ _, mbvOp_trace _ _ _ _, mbvOp_responses _ _ _ _⟩

/-- Settles O12: `exec` answered, so the block was idle and the trace grew by the operation's own entries. -/
theorem rasTransactionsAreFixed : Obligations.RasTransactionsAreFixed := by
  intro i n addr mask value s t hi hexec
  obtain ⟨-, rfl⟩ := exec_next hexec
  obtain ⟨rfl, rfl⟩ | ⟨rfl, rfl⟩ | ⟨rfl, rfl⟩ := hi
  · exact ⟨_, rdrOp_trace s addr, rfl, List.forall_mem_singleton.2 (isRegisterAccess_tRead ..)⟩
  · exact ⟨_, wrvOp_trace s addr value, rfl,
      List.forall_mem_cons.2 ⟨isRegisterAccess_tWrite .., List.forall_mem_singleton.2 (isRegisterAccess_tRead ..)⟩⟩
  · exact ⟨_, mbvOp_trace s addr mask value, rfl,
      List.forall_mem_cons.2 ⟨isRegisterAccess_tBitmod .., List.forall_mem_singleton.2 (isRegisterAccess_tRead ..)⟩⟩

end Sys2Proof.Proofs.RegisterAccess
end

section
/-! SUPPORT. The family of 42_arbitration_id_codec.md: the words of ENC and DEC (30_encoding.md R81), what each answers on the idle
block (R120, R131), and the identifier DEC reads back out of ENC's image (R123, R125). -/

namespace Sys2Proof.Proofs.Codec

open Sys2Proof Sys2Proof.Machine

/-! ## The words of the codec's commands -/

section Word

open BitVec (extractLsb'_append_eq_of_le extractLsb'_append_eq_left extractLsb'_append_eq_right)

theorem encode_enc_fields (id : Ident) (ext : Bool) :
    opcodeOf (encode (.enc id ext)) = 0x21#8 ∧ (encode (.enc id ext)).extractLsb' 33 7 = 0#7 ∧
      (encode (.enc id ext)).getLsbD 32 = ext ∧ (encode (.enc id ext)).extractLsb' 0 32 = id := by
  unfold opcodeOf encode
  refine ⟨?opcode, ?zero, ?flag, extractLsb'_append_eq_right⟩
  case opcode =>
    rw [extractLsb'_append_eq_of_le, extractLsb'_append_eq_of_le, extractLsb'_append_eq_left] <;> decide
  case zero => rw [extractLsb'_append_eq_of_le, extractLsb'_append_eq_of_le, extractLsb'_append_eq_right] <;> decide
  case flag => rw [BitVec.getLsbD_append, BitVec.getLsbD_append]; simp

theorem encode_dec_fields (sidh sidl eid8 eid0 : Byte) :
    opcodeOf (encode (.dec sidh sidl eid8 eid0)) = 0x22#8 ∧ byteAt 32 (encode (.dec sidh sidl eid8 eid0)) = 0#8 ∧
      byteAt 24 (encode (.dec sidh sidl eid8 eid0)) = sidh ∧ byteAt 16 (encode (.dec sidh sidl eid8 eid0)) = sidl ∧
      byteAt 8 (encode (.dec sidh sidl eid8 eid0)) = eid8 ∧ byteAt 0 (encode (.dec sidh sidl eid8 eid0)) = eid0 := by
  unfold opcodeOf byteAt encode
  refine ⟨?opcode, ?zero, ?sidh, ?sidl, ?eid8, extractLsb'_append_eq_right⟩
  case opcode =>
    rw [extractLsb'_append_eq_of_le, extractLsb'_append_eq_of_le, extractLsb'_append_eq_of_le,
      extractLsb'_append_eq_of_le, extractLsb'_append_eq_left] <;> decide
  case zero =>
    rw [extractLsb'_append_eq_of_le, extractLsb'_append_eq_of_le, extractLsb'_append_eq_of_le,
      extractLsb'_append_eq_of_le, extractLsb'_append_eq_right] <;> decide
  case sidh =>
    rw [extractLsb'_append_eq_of_le, extractLsb'_append_eq_of_le, extractLsb'_append_eq_of_le,
      extractLsb'_append_eq_right] <;> decide
  case sidl => rw [extractLsb'_append_eq_of_le, extractLsb'_append_eq_of_le, extractLsb'_append_eq_right] <;> decide
  case eid8 => rw [extractLsb'_append_eq_of_le, extractLsb'_append_eq_right]; decide

end Word

/-! ## What the commands answer -/

section Answer

variable {s : State} (hidle : s.ras.phase = .idle)
include hidle

theorem exec_enc (id : Ident) (ext : Bool) :
    exec (.enc id ext) s = .next (s.respond ⟨.ok, .image (encodeId id ext)⟩) := exec_idle hidle _

theorem exec_dec (sidh sidl eid8 eid0 : Byte) :
    exec (.dec sidh sidl eid8 eid0) s =
      .next (s.respond ⟨.ok, .ident (imageId ⟨sidh, sidl, eid8, eid0⟩) (sidl.getLsbD 3)⟩) := exec_idle hidle _

end Answer

/-! ## DEC of ENC's image -/

section RoundTrip

variable (id : Ident)

/-- A slice shifted back to where it was cut is the identifier under the slice's mask. -/
theorem slice_shiftLeft (lo n : Nat) :
    (id.extractLsb' lo n).setWidth 32 <<< lo = id &&& (BitVec.allOnes n).setWidth 32 <<< lo := by
  ext i hi
  simp only [BitVec.getElem_shiftLeft, BitVec.getElem_setWidth, BitVec.getLsbD_extractLsb', BitVec.getElem_and,
    BitVec.getLsbD_allOnes]
  by_cases hlo : i < lo
  · simp [hlo]
  · rw [show lo + (i - lo) = i by omega]
    simp [hlo, BitVec.getLsbD_eq_getElem hi, Bool.and_comm]

theorem slice_zero (n : Nat) : (id.extractLsb' 0 n).setWidth 32 = id &&& (BitVec.allOnes n).setWidth 32 := by
  simpa using slice_shiftLeft id 0 n

/-- DEC cuts the identifier's bits 20 to 18 out of the top of `sidl`. -/
theorem sidl_ext_high : ((encodeId id true).sidl &&& 0xE0#8).setWidth 32 <<< 13 = (id.extractLsb' 18 3).setWidth 32 <<< 18 := by
  have packed : ∀ (x : BitVec 3) (y : BitVec 2),
      ((x.setWidth 8 <<< 5 ||| 0x08#8 ||| y.setWidth 8) &&& 0xE0#8).setWidth 32 <<< 13 = x.setWidth 32 <<< 18 := by decide
  exact packed _ _

/-- And bits 17 and 16 out of its bottom. -/
theorem sidl_ext_low : ((encodeId id true).sidl &&& 0x03#8).setWidth 32 = (id.extractLsb' 16 2).setWidth 32 := by
  have packed : ∀ (x : BitVec 3) (y : BitVec 2),
      ((x.setWidth 8 <<< 5 ||| 0x08#8 ||| y.setWidth 8) &&& 0x03#8).setWidth 32 = y.setWidth 32 := by decide
  exact packed _ _

/-- In the standard image the top of `sidl` holds bits 2 to 0. -/
theorem sidl_std_high : ((encodeId id false).sidl &&& 0xE0#8).setWidth 32 >>> 5 = (id.extractLsb' 0 3).setWidth 32 := by
  have packed : ∀ x : BitVec 3, ((x.setWidth 8 <<< 5) &&& 0xE0#8).setWidth 32 >>> 5 = x.setWidth 32 := by decide
  exact packed _

/-- The extended image keeps the identifier's lower 29 bits (R125): its five slices, each put back by DEC. -/
theorem imageId_encodeId_ext : imageId (encodeId id true) = id &&& 0x1FFFFFFF#32 := by
  rw [imageId_ext (imageExt_encodeId id true), sidl_ext_high, sidl_ext_low, encodeId_ext_sidh, encodeId_ext_eid8,
    encodeId_ext_eid0, slice_shiftLeft, slice_shiftLeft, slice_shiftLeft, slice_shiftLeft, slice_zero]
  simp only [← BitVec.and_or_distrib_left]
  rfl

/-- The standard image keeps the lower 11 bits. -/
theorem imageId_encodeId_std : imageId (encodeId id false) = id &&& 0x7FF#32 := by
  rw [imageId_std (imageExt_encodeId id false), sidl_std_high, encodeId_std_sidh, slice_shiftLeft, slice_zero,
    ← BitVec.and_or_distrib_left]
  rfl

end RoundTrip

/-- The mask of a range drops nothing of a number in it. -/
theorem and_mask_of_lt {n : Nat} {id mask : Ident} (hmask : mask.toNat = 2 ^ n - 1) (h : id.toNat < 2 ^ n) :
    id &&& mask = id := by
  apply BitVec.eq_of_toNat_eq
  rw [BitVec.toNat_and, hmask, Nat.and_two_pow_sub_one_eq_mod, Nat.mod_eq_of_lt h]

/-! ## The standard branch of DEC -/

/-- Images that agree on `sidh`, on the flag, there clear, and on the upper three bits of `sidl` decode alike: the standard branch
looks at nothing else. -/
theorem imageId_std_congr {img img' : IdImage} (hext : imageExt img = false) (hext' : imageExt img' = false)
    (hsidh : img'.sidh = img.sidh) (hsidl : img'.sidl &&& 0xE0#8 = img.sidl &&& 0xE0#8) : imageId img' = imageId img := by
  rw [imageId_std hext, imageId_std hext', hsidh, hsidl]

/-- The mask of the bits that count in the standard branch covers bit 3 and the upper three. -/
theorem bits_of_and_E8 {a b : Byte} (h : a &&& 0xE8#8 = b &&& 0xE8#8) :
    a.getLsbD 3 = b.getLsbD 3 ∧ a &&& 0xE0#8 = b &&& 0xE0#8 := by
  constructor
  · simpa using congrArg (·.getLsbD 3) h
  · simpa [BitVec.and_assoc] using congrArg (· &&& 0xE0#8) h

/-! ## The obligations -/

/-- Settles O26: the word's fields, then the four bytes as ENC's image has them, by branch. -/
theorem encRespondsWithTheImage : Obligations.EncRespondsWithTheImage := by
  intro id ext s hidle
  refine ⟨encode_enc_fields id ext, (encodeId id ext).sidh, (encodeId id ext).sidl, (encodeId id ext).eid8,
    (encodeId id ext).eid0, exec_enc hidle id ext, ?_, ?_⟩
  · rintro rfl
    exact ⟨encodeId_ext_sidh id, encodeId_ext_sidl id, encodeId_ext_eid8 id, encodeId_ext_eid0 id⟩
  · rintro rfl
    exact ⟨encodeId_std_sidh id, encodeId_std_sidl id, encodeId_std_eid8 id, encodeId_std_eid0 id⟩

/-- Settles O27: the word's fields, then the identifier as the two branches of DEC give it. -/
theorem decRespondsWithTheIdentifier : Obligations.DecRespondsWithTheIdentifier :=
  fun sidh sidl eid8 eid0 _ hidle => ⟨encode_dec_fields sidh sidl eid8 eid0, imageId ⟨sidh, sidl, eid8, eid0⟩,
    exec_dec hidle sidh sidl eid8 eid0, fun h => imageId_ext h, fun h => imageId_std h⟩

/-- Settles O28: DEC of ENC truncates to the range, which in range is the identity. -/
theorem decodeAfterEncodeIsIdentity : Obligations.DecodeAfterEncodeIsIdentity := by
  constructor
  · intro id hid
    exact ⟨(imageId_encodeId_ext id).trans (and_mask_of_lt (n := 29) rfl hid), imageExt_encodeId id true⟩
  · intro id hid
    exact ⟨(imageId_encodeId_std id).trans (and_mask_of_lt (n := 11) rfl hid), imageExt_encodeId id false⟩

/-- Settles O31: the flag stands in DEC's answer as bit 3 of `sidl`; the two answers agree on it and, by the standard branch, on the
identifier. -/
theorem bitThreeOfSidlChoosesTheBranch : Obligations.BitThreeOfSidlChoosesTheBranch := by
  intro sidh sidl eid8 eid0 s hidle
  refine ⟨⟨_, exec_dec hidle sidh sidl eid8 eid0⟩, fun sidl' eid8' eid0' hclear hmask => ?_⟩
  obtain ⟨hflag, hhigh⟩ := bits_of_and_E8 hmask
  have hid : imageId ⟨sidh, sidl', eid8', eid0'⟩ = imageId ⟨sidh, sidl, eid8, eid0⟩ :=
    imageId_std_congr hclear (hflag.trans hclear) rfl hhigh
  rw [exec_dec hidle, exec_dec hidle, hid, hflag]

/-- Settles O33: each command's response is named by its operands alone. -/
theorem codecIgnoresTheState : Obligations.CodecIgnoresTheState := by
  rintro id ext sidh sidl eid8 eid0 i (rfl | rfl)
  · exact ⟨_, rfl, fun _ hidle => exec_enc hidle id ext⟩
  · exact ⟨_, rfl, fun _ hidle => exec_dec hidle sidh sidl eid8 eid0⟩

end Sys2Proof.Proofs.Codec
end

section
/-! SUPPORT. The family of 43_buffer_index.md: the word of RES (30_encoding.md R81), its answer on the idle block (R142), and what RES,
LOADFRAME and READFRAME do with an index that names no buffer (R143). -/

namespace Sys2Proof.Proofs.BufferIndex

open Sys2Proof Sys2Proof.Machine

/-! ## The word of RES -/

section Word

open BitVec (extractLsb'_append_eq_of_le extractLsb'_append_eq_left extractLsb'_append_eq_right)

theorem kind_bit_getLsbD (kind : Kind) : kind.bit.getLsbD 0 = (kind == .rx) := by
  cases kind <;> rfl

theorem encode_res_fields (kind : Kind) (index : Byte) :
    opcodeOf (encode (.res kind index)) = 0x31#8 ∧ (encode (.res kind index)).extractLsb' 9 31 = 0#31 ∧
      (encode (.res kind index)).getLsbD 8 = (kind == .rx) ∧ byteAt 0 (encode (.res kind index)) = index := by
  unfold opcodeOf byteAt encode
  refine ⟨?opcode, ?zero, ?kind, extractLsb'_append_eq_right⟩
  case opcode =>
    rw [extractLsb'_append_eq_of_le, extractLsb'_append_eq_of_le, extractLsb'_append_eq_left] <;> decide
  case zero => rw [extractLsb'_append_eq_of_le, extractLsb'_append_eq_of_le, extractLsb'_append_eq_right] <;> decide
  case kind =>
    rw [BitVec.getLsbD_append, BitVec.getLsbD_append, ← kind_bit_getLsbD]
    simp

end Word

/-! ## What RES answers -/

theorem exec_res {s : State} (hidle : s.ras.phase = .idle) (kind : Kind) (index : Byte) :
    exec (.res kind index) s = .next (s.respond (resResponse (resolve s.params kind index))) := exec_idle hidle _

/-- The offset 0xFF stands for -1 (R141). -/
theorem add_ctrlOffset_below (S : Byte) : S + ctrlOffset .below = S - 1#8 := (BitVec.sub_eq_add_neg S 1#8).symm

/-! ## An index out of its kind's range -/

theorem resolve_invalid (p : Params) {kind : Kind} {index : Byte} (htx : kind = .tx → 3 ≤ index.toNat)
    (hrx : kind = .rx → 2 ≤ index.toNat) : resolve p kind index = none := by
  cases kind with
  | tx => exact resolve_tx_invalid p (htx rfl)
  | rx => exact resolve_rx_invalid p (hrx rfl)

section Client

variable {s : State} {index : Byte}

theorem loadFrame_invalid (hnone : resolve s.params .tx index = none) (f : CanFrame) :
    loadFrame index f s = (s.respond ⟨.invalid, .empty⟩).finish ⟨.invalid, none⟩ := by
  simp [loadFrame, resOp, resResponse, hnone]

theorem readFrame_invalid (hnone : resolve s.params .rx index = none) :
    readFrame index s =
      .next ((s.respond ⟨.invalid, .empty⟩).drew.finish ⟨.invalid, some (Config.unspecifiedFrame s.draws)⟩) := by
  simp [readFrame, resOp, resResponse, hnone]

variable {h : List HostInput} (hidle : s.ras.phase = .idle)
include hidle

theorem step_loadFrame {f : CanFrame} (hhost : s.host = .loadFrame index f :: h) :
    step s = .next (loadFrame index f (s.withHost h)) := by
  rw [step_idle hidle, idleStep, hhost]

theorem step_readFrame (hhost : s.host = .readFrame index :: h) : step s = readFrame index (s.withHost h) := by
  rw [step_idle hidle, idleStep, hhost]

end Client

/-! ## The obligations -/

/-- Settles O34: the word's fields, then the response by the three rows of `resolve`; for RX by the place of CTRL. -/
theorem resResolvesTheBuffers : Obligations.ResResolvesTheBuffers := by
  intro kind index s hidle
  refine ⟨encode_res_fields kind index, _, exec_res hidle kind index, ?tx, ?rx, ?invalid⟩
  case tx =>
    rintro rfl hlt
    rw [resolve_tx _ hlt, resResponse]
  case rx =>
    rintro rfl hlt
    cases hplace : s.params.rxCtrlPlace with
    | below => rw [resolve_rx _ hlt, hplace, add_ctrlOffset_below, resResponse]
    | above => rw [resolve_rx _ hlt, hplace, ctrlOffset, resResponse]
  case invalid =>
    rintro (⟨rfl, hge⟩ | ⟨rfl, hge⟩)
    · rw [resolve_tx_invalid _ hge, resResponse]
    · rw [resolve_rx_invalid _ hge, resResponse]

/-- Settles O35: `resolve` answers none, so each of the three only records its answer. -/
theorem invalidIndexNeverReachesTheBus : Obligations.InvalidIndexNeverReachesTheBus := by
  intro kind index f s h hidle htx hrx
  have hnone : resolve s.params kind index = none := resolve_invalid _ htx hrx
  refine ⟨⟨_, exec_res hidle kind index, ?_, rfl, rfl, rfl⟩, ?_⟩
  · rw [hnone, resResponse, State.respond_responses]
  rintro (⟨rfl, hhost⟩ | ⟨rfl, hhost⟩)
  · rw [step_loadFrame hidle hhost, loadFrame_invalid (s := s.withHost h) hnone]
    exact ⟨_, rfl, ⟨_, List.getLast?_concat, rfl⟩, rfl, rfl, rfl, rfl⟩
  · rw [step_readFrame hidle hhost, readFrame_invalid (s := s.withHost h) hnone]
    exact ⟨_, rfl, ⟨_, List.getLast?_concat, rfl⟩, rfl, rfl, rfl, rfl⟩

end Sys2Proof.Proofs.BufferIndex
end

section
/-! SUPPORT. The family of 44_client_sequences.md: REQTX with a flag set, as an operation and as the idle block's step (R170). -/

namespace Sys2Proof.Proofs.ClientSequences

open Sys2Proof Sys2Proof.Machine

/-! ## REQTX with a flag set -/

section ReqTx

variable {tx0 tx1 tx2 : Bool} {s : State} (hflag : (tx0 || tx1 || tx2) = true)
include hflag

/-- REQTX with a flag set is never refused. -/
theorem reqTx_of_flag : reqTx tx0 tx1 tx2 s = .next ((s.log (tRts (rtsByte s.params tx0 tx1 tx2))).finish ⟨.ok, none⟩) :=
  if_pos hflag

/-- The host's move is taken first; it changes none of the parameters the byte is made from. -/
theorem step_reqTx {h : List HostInput} (hidle : s.ras.phase = .idle) (hhost : s.host = .reqTx tx0 tx1 tx2 :: h) :
    step s = .next (((s.withHost h).log (tRts (rtsByte s.params tx0 tx1 tx2))).finish ⟨.ok, none⟩) := by
  rw [step_idle hidle, idleStep, hhost]
  exact reqTx_of_flag hflag

end ReqTx

/-! ## The obligation -/

/-- Settles O44: the step logs one entry and records one result; its byte is `rtsByte`, and every other field is the old one. -/
theorem reqTxSendsOneByte : Obligations.ReqTxSendsOneByte :=
  fun _ _ _ _ _ hidle hhost hflag => ⟨_, step_reqTx hflag hidle hhost, rfl, rfl, rfl, rfl, rfl, rfl⟩

end Sys2Proof.Proofs.ClientSequences
end

section
/-! SUPPORT. Command and response words (30_encoding.md R79 to R85): a row of the opcode table read as fixed fields, the decoder row by
row in both directions, the two ways a word is undefined, and the block's answer to each. -/

namespace Sys2Proof.Proofs.CommandWords

open Sys2Proof Sys2Proof.Machine Sys2Proof.Laws
open Sys2Proof.Proofs.RegisterAccess (rasWord rasWord_fields encode_wrv encode_mbv)
open Sys2Proof.Proofs.Codec (encode_enc_fields encode_dec_fields)
open Sys2Proof.Proofs.BufferIndex (encode_res_fields)

/-! ## The decoder, row by row -/

section Rows

variable {w : CmdWord}

theorem decode_rdr (h : rdrRow.fits w = true) : decode w = .instr (.rdr (byteAt 16 w)) := by
  rw [decode, if_pos h]

theorem decode_wrv (h : wrvRow.fits w = true) : decode w = .instr (.wrv (byteAt 16 w) (byteAt 0 w)) := by
  have h1 : rdrRow.fits w = false := fits_other h (by decide)
  simp [decode, h, h1]

theorem decode_mbv (h : mbvRow.fits w = true) : decode w = .instr (.mbv (byteAt 16 w) (byteAt 8 w) (byteAt 0 w)) := by
  have h1 : rdrRow.fits w = false := fits_other h (by decide)
  have h2 : wrvRow.fits w = false := fits_other h (by decide)
  simp [decode, h, h1, h2]

theorem decode_enc (h : encRow.fits w = true) : decode w = .instr (.enc (w.extractLsb' 0 32) (w.getLsbD 32)) := by
  have h1 : rdrRow.fits w = false := fits_other h (by decide)
  have h2 : wrvRow.fits w = false := fits_other h (by decide)
  have h3 : mbvRow.fits w = false := fits_other h (by decide)
  simp [decode, h, h1, h2, h3]

theorem decode_dec (h : decRow.fits w = true) :
    decode w = .instr (.dec (byteAt 24 w) (byteAt 16 w) (byteAt 8 w) (byteAt 0 w)) := by
  have h1 : rdrRow.fits w = false := fits_other h (by decide)
  have h2 : wrvRow.fits w = false := fits_other h (by decide)
  have h3 : mbvRow.fits w = false := fits_other h (by decide)
  have h4 : encRow.fits w = false := fits_other h (by decide)
  simp [decode, h, h1, h2, h3, h4]

theorem decode_res (h : resRow.fits w = true) :
    decode w = .instr (.res (Kind.ofBit (w.extractLsb' 8 1)) (byteAt 0 w)) := by
  have h1 : rdrRow.fits w = false := fits_other h (by decide)
  have h2 : wrvRow.fits w = false := fits_other h (by decide)
  have h3 : mbvRow.fits w = false := fits_other h (by decide)
  have h4 : encRow.fits w = false := fits_other h (by decide)
  have h5 : decRow.fits w = false := fits_other h (by decide)
  simp [decode, h, h1, h2, h3, h4, h5]

/-- The decoder answers a reject exactly when the word fits no row, and then by the opcode. -/
theorem decode_eq_reject {why : Reject} : decode w = .reject why ↔ (∀ r ∈ opcodeRows, r.fits w = false) ∧
    why = if opcodeOf w ∈ definedOpcodes then .nonzeroReserved else .undefinedOpcode := by
  constructor
  · intro h
    unfold decode at h
    split_ifs at h <;> cases h <;> simp_all [opcodeRows]
  · rintro ⟨hnone, rfl⟩
    simp only [opcodeRows, List.forall_mem_cons] at hnone
    obtain ⟨h1, h2, h3, h4, h5, h6, -⟩ := hnone
    simp only [decode, h1, h2, h3, h4, h5, h6, List.contains_iff_mem]
    by_cases hop : opcodeOf w ∈ definedOpcodes <;> simp [hop]

end Rows

/-! ## Decode after encode -/

theorem encode_rdr (addr : Byte) : encode (.rdr addr) = rasWord 0x11#8 addr 0#8 0#8 := rfl

theorem kind_ofBit_bit (kind : Kind) : Kind.ofBit kind.bit = kind := by cases kind <;> rfl

theorem kind_bit_ofBit : ∀ b : BitVec 1, (Kind.ofBit b).bit = b := by decide

theorem encode_res_kind (kind : Kind) (index : Byte) : (encode (.res kind index)).extractLsb' 8 1 = kind.bit := by
  rw [encode, BitVec.extractLsb'_append_eq_of_le (by decide), BitVec.extractLsb'_append_eq_right]

/-! ## Encode after decode: a word is its fields one after another, and its row fixes the rest -/

section Fields

open BitVec (extractLsb'_append_extractLsb'_eq_extractLsb')

variable {w : CmdWord}

/-- A field whose bits a row fixes, all of them, holds what the row says in every word of the row. -/
theorem field_of_fits {r : Row} {lo n : Nat} (h : r.fits w = true) (hmask : r.mask.extractLsb' lo n = BitVec.allOnes n) :
    w.extractLsb' lo n = r.value.extractLsb' lo n := by
  rw [← beq_iff_eq.1 h, BitVec.extractLsb'_and, hmask, BitVec.and_allOnes]

/-- The word's fields of widths 8, 16, 8, 8, 8, put one after another again. -/
theorem rasWord_of_fields (hzero : w.extractLsb' 24 16 = 0#16) :
    rasWord (opcodeOf w) (byteAt 16 w) (byteAt 8 w) (byteAt 0 w) = w := by
  rw [rasWord, ← hzero, opcodeOf, byteAt, byteAt, byteAt, extractLsb'_append_extractLsb'_eq_extractLsb' (by decide),
    extractLsb'_append_extractLsb'_eq_extractLsb' (by decide), extractLsb'_append_extractLsb'_eq_extractLsb' (by decide),
    extractLsb'_append_extractLsb'_eq_extractLsb' (by decide)]
  exact BitVec.extractLsb'_eq_self

theorem encode_rdr_of_fits (h : rdrRow.fits w = true) : encode (.rdr (byteAt 16 w)) = w := by
  have hop : opcodeOf w = 0x11#8 := field_of_fits h (by decide)
  have hmask : byteAt 8 w = 0#8 := field_of_fits h (by decide)
  have hvalue : byteAt 0 w = 0#8 := field_of_fits h (by decide)
  have hword := rasWord_of_fields (field_of_fits h (by decide))
  rwa [hop, hmask, hvalue] at hword

theorem encode_wrv_of_fits (h : wrvRow.fits w = true) : encode (.wrv (byteAt 16 w) (byteAt 0 w)) = w := by
  have hop : opcodeOf w = 0x12#8 := field_of_fits h (by decide)
  have hmask : byteAt 8 w = 0#8 := field_of_fits h (by decide)
  have hword := rasWord_of_fields (field_of_fits h (by decide))
  rwa [hop, hmask] at hword

theorem encode_mbv_of_fits (h : mbvRow.fits w = true) : encode (.mbv (byteAt 16 w) (byteAt 8 w) (byteAt 0 w)) = w := by
  have hop : opcodeOf w = 0x13#8 := field_of_fits h (by decide)
  have hword := rasWord_of_fields (field_of_fits h (by decide))
  rwa [hop] at hword

theorem encode_enc_of_fits (h : encRow.fits w = true) : encode (.enc (w.extractLsb' 0 32) (w.getLsbD 32)) = w := by
  have hop : w.extractLsb' 40 8 = 0x21#8 := field_of_fits h (by decide)
  have hzero : w.extractLsb' 33 7 = 0#7 := field_of_fits h (by decide)
  have hflag : BitVec.ofBool (w.getLsbD 32) = w.extractLsb' 32 1 := by
    ext i hi
    simp [show i = 0 by omega]
  rw [encode, ← hop, ← hzero, hflag, extractLsb'_append_extractLsb'_eq_extractLsb' (by decide),
    extractLsb'_append_extractLsb'_eq_extractLsb' (by decide), extractLsb'_append_extractLsb'_eq_extractLsb' (by decide)]
  exact BitVec.extractLsb'_eq_self

theorem encode_dec_of_fits (h : decRow.fits w = true) :
    encode (.dec (byteAt 24 w) (byteAt 16 w) (byteAt 8 w) (byteAt 0 w)) = w := by
  have hop : w.extractLsb' 40 8 = 0x22#8 := field_of_fits h (by decide)
  have hzero : w.extractLsb' 32 8 = 0#8 := field_of_fits h (by decide)
  rw [encode, ← hop, ← hzero, byteAt, byteAt, byteAt, byteAt, extractLsb'_append_extractLsb'_eq_extractLsb' (by decide),
    extractLsb'_append_extractLsb'_eq_extractLsb' (by decide), extractLsb'_append_extractLsb'_eq_extractLsb' (by decide),
    extractLsb'_append_extractLsb'_eq_extractLsb' (by decide), extractLsb'_append_extractLsb'_eq_extractLsb' (by decide)]
  exact BitVec.extractLsb'_eq_self

theorem encode_res_of_fits (h : resRow.fits w = true) :
    encode (.res (Kind.ofBit (w.extractLsb' 8 1)) (byteAt 0 w)) = w := by
  have hop : w.extractLsb' 40 8 = 0x31#8 := field_of_fits h (by decide)
  have hzero : w.extractLsb' 9 31 = 0#31 := field_of_fits h (by decide)
  rw [encode, ← hop, ← hzero, kind_bit_ofBit, byteAt, extractLsb'_append_extractLsb'_eq_extractLsb' (by decide),
    extractLsb'_append_extractLsb'_eq_extractLsb' (by decide), extractLsb'_append_extractLsb'_eq_extractLsb' (by decide)]
  exact BitVec.extractLsb'_eq_self

end Fields

/-! ## Undefined words: the opcode and the zero bits, taken together, are the row's fixed bits -/

section Undefined

variable {w : CmdWord}

/-- The bits of a word that hold its opcode. -/
def opcodeMask : CmdWord := 0xFF0000000000#48

theorem and_opcodeMask : w &&& opcodeMask = (opcodeOf w).setWidth 48 <<< 40 := by
  ext i hi
  simp only [opcodeMask, opcodeOf, BitVec.getElem_and, BitVec.getElem_shiftLeft, BitVec.getElem_setWidth,
    BitVec.getLsbD_extractLsb']
  interval_cases i <;> simp [BitVec.getLsbD_eq_getElem]

/-- An opcode placed in a word is read back. -/
theorem opcodeOf_shiftLeft (c : Byte) : opcodeOf (c.setWidth 48 <<< 40) = c := by
  ext i hi
  simp [opcodeOf, BitVec.getLsbD_eq_getElem hi, show 40 + i < 48 by omega]

/-- A row that fixes the opcode `c` and calls the bits of `z` zero fits the words that have that opcode and none of those bits. -/
theorem fits_iff {r : Row} {c : Byte} {z : CmdWord} (hmask : r.mask = opcodeMask ||| z)
    (hvalue : r.value = c.setWidth 48 <<< 40) (hdisj : r.value &&& z = 0#48) :
    r.fits w = true ↔ opcodeOf w = c ∧ w &&& z = 0#48 := by
  have hsplit : w &&& r.mask = (opcodeOf w).setWidth 48 <<< 40 ||| w &&& z := by
    rw [hmask, BitVec.and_or_distrib_left, and_opcodeMask]
  rw [Row.fits, beq_iff_eq, hsplit]
  constructor
  · intro h
    have hz : w &&& z = 0#48 := by
      have hand := congrArg (· &&& z) h
      simp only [hdisj, BitVec.and_or_distrib_right, BitVec.and_assoc, BitVec.and_self, BitVec.or_eq_zero_iff] at hand
      exact hand.2
    rw [hz, BitVec.or_zero, hvalue] at h
    exact ⟨by simpa only [opcodeOf_shiftLeft] using congrArg opcodeOf h, hz⟩
  · rintro ⟨hop, hz⟩
    rw [hop, hz, BitVec.or_zero, hvalue]

/-- So the table's rows are made: each fixes its opcode and that opcode's zero bits. -/
theorem opcodeRows_layout : ∀ r ∈ opcodeRows, r.mask = opcodeMask ||| zeroBits (opcodeOf r.value) ∧
    r.value = (opcodeOf r.value).setWidth 48 <<< 40 ∧ r.value &&& zeroBits (opcodeOf r.value) = 0#48 := by decide

theorem definedOpcodes_eq : definedOpcodes = opcodeRows.map fun r => opcodeOf r.value := by decide

/-- A word is a command's when its opcode is one of the six and the bits that opcode calls zero are 0. -/
theorem exists_row_fits_iff : (∃ r ∈ opcodeRows, r.fits w = true) ↔
    opcodeOf w ∈ definedOpcodes ∧ w &&& zeroBits (opcodeOf w) = 0#48 := by
  rw [definedOpcodes_eq]
  constructor
  · rintro ⟨r, hr, hfits⟩
    obtain ⟨hmask, hvalue, hdisj⟩ := opcodeRows_layout r hr
    obtain ⟨hop, hz⟩ := (fits_iff hmask hvalue hdisj).1 hfits
    rw [hop]
    exact ⟨List.mem_map_of_mem hr, hz⟩
  · rintro ⟨hop, hz⟩
    obtain ⟨r, hr, hopr⟩ := List.mem_map.1 hop
    obtain ⟨hmask, hvalue, hdisj⟩ := opcodeRows_layout r hr
    exact ⟨r, hr, (fits_iff hmask hvalue hdisj).2 ⟨hopr.symm, hopr ▸ hz⟩⟩

/-- The decoder's rejects in the spec's terms: an opcode of none of the six, or a zero bit that is 1. -/
theorem decode_eq_reject_iff {why : Reject} : decode w = .reject why ↔
    ¬(opcodeOf w ∈ definedOpcodes ∧ w &&& zeroBits (opcodeOf w) = 0#48) ∧
      why = if opcodeOf w ∈ definedOpcodes then .nonzeroReserved else .undefinedOpcode := by
  rw [decode_eq_reject, ← exists_row_fits_iff]
  simp only [not_exists, not_and, Bool.not_eq_true]

end Undefined

/-! ## The response word -/

section Response

open BitVec (extractLsb'_append_eq_of_le extractLsb'_append_eq_left extractLsb'_append_eq_right)

theorem response_word_fields (r : Response) : r.word.extractLsb' 38 2 = r.code.bits ∧ r.word.extractLsb' 33 5 = 0#5 ∧
    r.word.extractLsb' 0 33 = r.data.bits := by
  unfold Response.word
  refine ⟨?code, ?zero, extractLsb'_append_eq_right⟩
  case code => rw [extractLsb'_append_eq_of_le, extractLsb'_append_eq_left]; decide
  case zero => rw [extractLsb'_append_eq_of_le, extractLsb'_append_eq_right]; decide

theorem bits_byte_fields (b : Byte) : (RspData.byte b).bits.extractLsb' 0 8 = b ∧
    (RspData.byte b).bits.extractLsb' 8 25 = 0#25 :=
  ⟨extractLsb'_append_eq_right, extractLsb'_append_eq_left⟩

theorem bits_image_fields (img : IdImage) : (RspData.image img).bits.extractLsb' 24 8 = img.sidh ∧
    (RspData.image img).bits.extractLsb' 16 8 = img.sidl ∧ (RspData.image img).bits.extractLsb' 8 8 = img.eid8 ∧
    (RspData.image img).bits.extractLsb' 0 8 = img.eid0 ∧ (RspData.image img).bits.getLsbD 32 = false := by
  unfold RspData.bits
  refine ⟨?sidh, ?sidl, ?eid8, extractLsb'_append_eq_right, ?top⟩
  case sidh =>
    rw [extractLsb'_append_eq_of_le, extractLsb'_append_eq_of_le, extractLsb'_append_eq_of_le,
      extractLsb'_append_eq_right] <;> decide
  case sidl => rw [extractLsb'_append_eq_of_le, extractLsb'_append_eq_of_le, extractLsb'_append_eq_right] <;> decide
  case eid8 => rw [extractLsb'_append_eq_of_le, extractLsb'_append_eq_right]; decide
  case top =>
    rw [BitVec.getLsbD_append, BitVec.getLsbD_append, BitVec.getLsbD_append, BitVec.getLsbD_append]
    simp

theorem bits_ident_fields (id : Ident) (ext : Bool) : (RspData.ident id ext).bits.extractLsb' 0 32 = id ∧
    (RspData.ident id ext).bits.getLsbD 32 = ext := by
  refine ⟨extractLsb'_append_eq_right, ?_⟩
  rw [RspData.bits, BitVec.getLsbD_append]
  simp

/-- A block without CTRL leaves the place of its address zero. -/
theorem bits_block_eq (S : Byte) (k : Option Byte) :
    (RspData.block ⟨S, k⟩).bits = 0#16 ++ BitVec.ofBool k.isSome ++ k.getD 0#8 ++ S := by
  cases k <;> rfl

theorem bits_block_fields (S : Byte) (k : Option Byte) : (RspData.block ⟨S, k⟩).bits.extractLsb' 0 8 = S ∧
    (RspData.block ⟨S, k⟩).bits.extractLsb' 8 8 = k.getD 0#8 ∧ (RspData.block ⟨S, k⟩).bits.getLsbD 16 = k.isSome ∧
    (RspData.block ⟨S, k⟩).bits.extractLsb' 17 16 = 0#16 := by
  rw [bits_block_eq]
  refine ⟨extractLsb'_append_eq_right, ?ctrl, ?hasCtrl, ?zero⟩
  case ctrl => rw [extractLsb'_append_eq_of_le, extractLsb'_append_eq_right]; decide
  case hasCtrl => rw [BitVec.getLsbD_append, BitVec.getLsbD_append, BitVec.getLsbD_append]; simp
  case zero => rw [extractLsb'_append_eq_of_le, extractLsb'_append_eq_of_le, extractLsb'_append_eq_left] <;> decide

end Response

/-! ## The obligations -/

/-- Settles O2: the word fits its command's row, whose decoder arm reads back the fields the encoder laid down. -/
theorem encodedCommandDecodesBack : Obligations.EncodedCommandDecodesBack := by
  intro i
  cases i with
  | rdr addr =>
    obtain ⟨-, -, haddr, -, -⟩ := rasWord_fields 0x11#8 addr 0#8 0#8
    rw [decode_rdr (fits_rdr addr), encode_rdr, haddr]
  | wrv addr value =>
    obtain ⟨-, -, haddr, -, hvalue⟩ := rasWord_fields 0x12#8 addr 0#8 value
    rw [decode_wrv (fits_wrv addr value), encode_wrv, haddr, hvalue]
  | mbv addr mask value =>
    obtain ⟨-, -, haddr, hmask, hvalue⟩ := rasWord_fields 0x13#8 addr mask value
    rw [decode_mbv (fits_mbv addr mask value), encode_mbv, haddr, hmask, hvalue]
  | enc id ext =>
    obtain ⟨-, -, hext, hid⟩ := encode_enc_fields id ext
    rw [decode_enc (fits_enc id ext), hid, hext]
  | dec sidh sidl eid8 eid0 =>
    obtain ⟨-, -, hsidh, hsidl, heid8, heid0⟩ := encode_dec_fields sidh sidl eid8 eid0
    rw [decode_dec (fits_dec sidh sidl eid8 eid0), hsidh, hsidl, heid8, heid0]
  | res kind index =>
    obtain ⟨-, -, -, hindex⟩ := encode_res_fields kind index
    rw [decode_res (fits_res kind index), encode_res_kind, kind_ofBit_bit, hindex]

/-- Settles O3: the word fits the row whose arm answered, and is its own fields put together again. -/
theorem decodedWordIsTheEncoding : Obligations.DecodedWordIsTheEncoding := by
  intro w i h
  unfold decode at h
  split_ifs at h with h1 h2 h3 h4 h5 h6 <;> cases h
  · exact encode_rdr_of_fits h1
  · exact encode_wrv_of_fits h2
  · exact encode_mbv_of_fits h3
  · exact encode_enc_of_fits h4
  · exact encode_dec_of_fits h5
  · exact encode_res_of_fits h6

/-- Settles O4: a reject means that no row fits, and its reason is chosen by the opcode. -/
theorem undefinedByOpcodeOrZeroBits : Obligations.UndefinedByOpcodeOrZeroBits := by
  intro w
  rw [decode_eq_reject_iff, decode_eq_reject_iff]
  by_cases hop : opcodeOf w ∈ definedOpcodes <;> simp [hop]

/-- Settles O1: each of the eight words is evaluated. -/
theorem specWordsDecode : Obligations.SpecWordsDecode := by
  unfold Obligations.SpecWordsDecode
  decide

/-- Settles O5: in either reading the idle block only gives the response `Refused`. -/
theorem undefinedCommandIsRefused : Obligations.UndefinedCommandIsRefused := by
  intro s w h why hidle hhost hdecode
  refine ⟨?_, rfl⟩
  rw [step_idle hidle, idleStep]
  obtain hhost | hhost := hhost
  · simp only [hhost, runCommand, hdecode]
    rfl
  · simp only [hhost, presentCommand, hdecode]
    rfl

/-- Settles O6: the idle block takes the host's move and runs what it decodes to. -/
theorem stepRunsTheDecodedCommand : Obligations.StepRunsTheDecodedCommand := by
  intro s w h i hidle hhost hdecode
  rw [step_idle hidle, idleStep]
  simp only [hhost, runCommand, hdecode]
  rfl

/-- Settles O8: the word's three fields, then the data field by kind of data. -/
theorem responseWordLayout : Obligations.ResponseWordLayout := by
  intro c
  refine ⟨fun d => ?_, rfl, bits_byte_fields, bits_image_fields, bits_ident_fields, bits_block_fields⟩
  obtain ⟨hcode, hzero, hdata⟩ := response_word_fields ⟨c, d⟩
  exact ⟨by rw [hcode]; cases c <;> rfl, hzero, hdata⟩

end Sys2Proof.Proofs.CommandWords
end

section
/-! SUPPORT. The codec's laws in the direction from bytes to identifier (42_arbitration_id_codec.md R124, R125, R130): DEC's identifier as
the fields of the image one after another, from which its range and ENC's bytes for it are read off. -/

namespace Sys2Proof.Proofs.CodecLaws

open Sys2Proof Sys2Proof.Machine
open Sys2Proof.Proofs.Encoding (encodeId_ext_sidl_middle)
open Sys2Proof.Proofs.Codec (imageId_encodeId_ext imageId_encodeId_std and_mask_of_lt)
open BitVec (extractLsb'_append_eq_of_le extractLsb'_append_eq_left extractLsb'_append_eq_right extractLsb'_setWidth_of_le)

/-! ## DEC's identifier, field after field -/

section Ident

variable {img : IdImage}

/-- The extended identifier is 29 bits of the four bytes, in order. -/
theorem imageId_ext_append (hext : imageExt img = true) : imageId img =
    (img.sidh ++ img.sidl.extractLsb' 5 3 ++ img.sidl.extractLsb' 0 2 ++ img.eid8 ++ img.eid0).setWidth 32 := by
  rw [imageId_ext hext]
  ext i hi
  simp only [BitVec.getElem_or, BitVec.getElem_shiftLeft, BitVec.getElem_setWidth, BitVec.getLsbD_append]
  interval_cases i <;> simp

/-- The standard identifier is `sidh` and the top of `sidl`. -/
theorem imageId_std_append (hstd : imageExt img = false) :
    imageId img = (img.sidh ++ img.sidl.extractLsb' 5 3).setWidth 32 := by
  rw [imageId_std hstd]
  ext i hi
  simp only [BitVec.getElem_or, BitVec.getElem_shiftLeft, BitVec.getElem_ushiftRight, BitVec.getElem_setWidth,
    BitVec.getLsbD_append]
  interval_cases i <;> simp

theorem imageId_ext_lt (hext : imageExt img = true) : (imageId img).toNat < 2 ^ 29 := by
  rw [imageId_ext_append hext, BitVec.toNat_setWidth]
  exact (Nat.mod_le _ _).trans_lt (BitVec.isLt _)

theorem imageId_std_lt (hstd : imageExt img = false) : (imageId img).toNat < 2 ^ 11 := by
  rw [imageId_std_append hstd, BitVec.toNat_setWidth]
  exact (Nat.mod_le _ _).trans_lt (BitVec.isLt _)

/-- DEC answers an identifier in its branch's range. -/
theorem idInRange_imageId (img : IdImage) : idInRange (imageId img) (imageExt img) = true := by
  cases hext : imageExt img with
  | true => exact decide_eq_true (imageId_ext_lt hext)
  | false => exact decide_eq_true (imageId_std_lt hext)

end Ident

/-! ## ENC of DEC's identifier -/

section EncodeDecode

variable {img : IdImage}

/-- The two fields ENC packs into an extended `sidl`, with the flag, are the byte without bits 4 and 2. -/
theorem sidl_ext_repacked : ∀ b : Byte, b.getLsbD 3 = true →
    ((b.extractLsb' 5 3).setWidth 8 <<< 5 ||| 0x08#8 ||| (b.extractLsb' 0 2).setWidth 8) = b &&& 0xEB#8 := by decide

theorem sidl_std_repacked : ∀ b : Byte, (b.extractLsb' 5 3).setWidth 8 <<< 5 = b &&& 0xE0#8 := by decide

theorem encodeId_imageId_ext (hext : imageExt img = true) :
    encodeId (imageId img) true = { img with sidl := img.sidl &&& 0xEB#8 } := by
  have hsidh : (imageId img).extractLsb' 21 8 = img.sidh := by
    rw [imageId_ext_append hext, extractLsb'_setWidth_of_le, extractLsb'_append_eq_of_le, extractLsb'_append_eq_of_le,
      extractLsb'_append_eq_of_le, extractLsb'_append_eq_left] <;> decide
  have hhigh : (imageId img).extractLsb' 18 3 = img.sidl.extractLsb' 5 3 := by
    rw [imageId_ext_append hext, extractLsb'_setWidth_of_le, extractLsb'_append_eq_of_le, extractLsb'_append_eq_of_le,
      extractLsb'_append_eq_of_le, extractLsb'_append_eq_right] <;> decide
  have hlow : (imageId img).extractLsb' 16 2 = img.sidl.extractLsb' 0 2 := by
    rw [imageId_ext_append hext, extractLsb'_setWidth_of_le, extractLsb'_append_eq_of_le, extractLsb'_append_eq_of_le,
      extractLsb'_append_eq_right] <;> decide
  have heid8 : (imageId img).extractLsb' 8 8 = img.eid8 := by
    rw [imageId_ext_append hext, extractLsb'_setWidth_of_le, extractLsb'_append_eq_of_le, extractLsb'_append_eq_right] <;> decide
  have heid0 : (imageId img).extractLsb' 0 8 = img.eid0 := by
    rw [imageId_ext_append hext, extractLsb'_setWidth_of_le (by decide), extractLsb'_append_eq_right]
  simp only [encodeId, if_true, hsidh, hhigh, hlow, heid8, heid0, sidl_ext_repacked img.sidl hext]

theorem encodeId_imageId_std (hstd : imageExt img = false) :
    encodeId (imageId img) false = { img with sidl := img.sidl &&& 0xE0#8, eid8 := 0#8, eid0 := 0#8 } := by
  have hsidh : (imageId img).extractLsb' 3 8 = img.sidh := by
    rw [imageId_std_append hstd, extractLsb'_setWidth_of_le (by decide), extractLsb'_append_eq_left]
  have hhigh : (imageId img).extractLsb' 0 3 = img.sidl.extractLsb' 5 3 := by
    rw [imageId_std_append hstd, extractLsb'_setWidth_of_le (by decide), extractLsb'_append_eq_right]
  simp only [encodeId, Bool.false_eq_true, if_false, hsidh, hhigh, sidl_std_repacked]

/-- Nothing is cleared from an extended image whose bits 4 and 2 of `sidl` are clear already. -/
theorem and_EB_eq_iff : ∀ b : Byte, b &&& 0xEB#8 = b ↔ b.getLsbD 4 = false ∧ b.getLsbD 2 = false := by decide

theorem and_E0_eq_iff : ∀ b : Byte, b.getLsbD 3 = false →
    (b &&& 0xE0#8 = b ↔ b.getLsbD 4 = false ∧ b.getLsbD 2 = false ∧ b.extractLsb' 0 2 = 0#2) := by decide

/-- The identity holds exactly where nothing is cleared. -/
theorem encodeId_imageId_eq_iff (img : IdImage) : encodeId (imageId img) (imageExt img) = img ↔
    img.sidl.getLsbD 4 = false ∧ img.sidl.getLsbD 2 = false ∧
      (img.sidl.getLsbD 3 = false → img.sidl.extractLsb' 0 2 = 0#2 ∧ img.eid8 = 0#8 ∧ img.eid0 = 0#8) := by
  cases hflag : img.sidl.getLsbD 3 with
  | true =>
    have hext : imageExt img = true := hflag
    rw [hext, encodeId_imageId_ext hext]
    cases img
    simp [and_EB_eq_iff]
  | false =>
    have hstd : imageExt img = false := hflag
    rw [hstd, encodeId_imageId_std hstd]
    cases img
    simp [and_E0_eq_iff _ hflag, eq_comm (a := 0#8), and_assoc]

end EncodeDecode

/-! ## The images ENC can produce, and the identifiers it tells apart -/

section Encode

/-- ENC leaves bit 4 of `sidl` zero in both branches. -/
theorem encodeId_sidl_four (id : Ident) (ext : Bool) : (encodeId id ext).sidl.getLsbD 4 = false := by
  cases ext with
  | true => exact (encodeId_ext_sidl_middle id).1
  | false => simp

theorem imageId_encodeId {id : Ident} {ext : Bool} (h : idInRange id ext = true) : imageId (encodeId id ext) = id := by
  cases ext with
  | true => exact (imageId_encodeId_ext id).trans (and_mask_of_lt (n := 29) rfl (of_decide_eq_true h))
  | false => exact (imageId_encodeId_std id).trans (and_mask_of_lt (n := 11) rfl (of_decide_eq_true h))

/-- A slice that a mask leaves whole does not see the mask. -/
theorem extractLsb'_and_of_mask {id mask : Ident} {lo n : Nat} (h : mask.extractLsb' lo n = BitVec.allOnes n) :
    (id &&& mask).extractLsb' lo n = id.extractLsb' lo n := by
  rw [BitVec.extractLsb'_and, h, BitVec.and_allOnes]

theorem encodeId_ext_truncated (id : Ident) : encodeId (id &&& 0x1FFFFFFF#32) true = encodeId id true := by
  simp only [encodeId, if_true]
  rw [extractLsb'_and_of_mask (by decide), extractLsb'_and_of_mask (by decide), extractLsb'_and_of_mask (by decide),
    extractLsb'_and_of_mask (by decide), extractLsb'_and_of_mask (by decide)]

theorem encodeId_std_truncated (id : Ident) : encodeId (id &&& 0x7FF#32) false = encodeId id false := by
  simp only [encodeId, Bool.false_eq_true, if_false]
  rw [extractLsb'_and_of_mask (by decide), extractLsb'_and_of_mask (by decide)]

/-- The bits of `sidl` ENC fixes, in the extended and in the standard image. -/
theorem encodeId_sidl_fixed (id : Ident) : (encodeId id true).sidl &&& 0x14#8 = 0#8 ∧
    (encodeId id true).sidl &&& 0x08#8 = 0x08#8 ∧ (encodeId id false).sidl &&& 0x1F#8 = 0#8 := by
  have ext : ∀ (x : BitVec 3) (y : BitVec 2), (x.setWidth 8 <<< 5 ||| 0x08#8 ||| y.setWidth 8) &&& 0x14#8 = 0#8 ∧
      (x.setWidth 8 <<< 5 ||| 0x08#8 ||| y.setWidth 8) &&& 0x08#8 = 0x08#8 := by decide
  have std : ∀ x : BitVec 3, (x.setWidth 8 <<< 5) &&& 0x1F#8 = 0#8 := by decide
  exact ⟨(ext _ _).1, (ext _ _).2, std _⟩

end Encode

/-! ## The obligations -/

/-- Settles O29: the bytes are ENC's for the fields DEC put together; the witnesses differ in bit 4 of `sidl`, which DEC ignores and ENC
never sets; in range an identifier is read back from its image. -/
theorem encodeAfterDecodeClearsIgnoredBits : Obligations.EncodeAfterDecodeClearsIgnoredBits := by
  refine ⟨fun img => ?_, encodeId_imageId_eq_iff, ⟨⟨0, 0, 0, 0⟩, ⟨0, 0x10, 0, 0⟩, by decide⟩,
    ⟨⟨0, 0x10, 0, 0⟩, fun id ext h => ?_⟩, fun id id' ext ext' hid hid' h => ?_⟩
  · cases hext : imageExt img with
    | true => rw [encodeId_imageId_ext hext, if_pos (show img.sidl.getLsbD 3 = true from hext)]
    | false => rw [encodeId_imageId_std hext, if_neg (show ¬img.sidl.getLsbD 3 = true from Bool.eq_false_iff.1 hext)]
  · have hfour := encodeId_sidl_four id ext
    rw [h] at hfour
    exact absurd hfour (by decide)
  · exact ⟨by rw [← imageId_encodeId hid, h, imageId_encodeId hid'],
      by rw [← imageExt_encodeId id ext, h, imageExt_encodeId]⟩

/-- Settles O30: ENC's slices lie inside the mask of the branch's range, and DEC puts the masked identifier together. -/
theorem oversizeIdentifierIsTruncated : Obligations.OversizeIdentifierIsTruncated := fun id =>
  ⟨(encodeId_ext_truncated id).symm, (encodeId_std_truncated id).symm, imageId_encodeId_ext id, imageId_encodeId_std id⟩

/-- Settles O32: DEC's ranges by the widths of its fields, ENC's fixed bits by what it packs. -/
theorem codecResultRanges : Obligations.CodecResultRanges := by
  refine ⟨fun img => ⟨fun hext => Nat.le_of_lt_succ (imageId_ext_lt hext), fun hstd => Nat.le_of_lt_succ (imageId_std_lt hstd)⟩,
    fun id => ?_⟩
  obtain ⟨hzero, hflag, hlow⟩ := encodeId_sidl_fixed id
  exact ⟨hzero, hflag, hlow, encodeId_std_eid8 id, encodeId_std_eid0 id⟩

end Sys2Proof.Proofs.CodecLaws
end

section
/-! SUPPORT. The register-access sequencer beyond its own family's statements (41_register_access.md R104, R105; 70_reset_and_hazards.md R217):
the rows of the step relation field by field, the busy block's step, runs of the block, and what a RAS operation leaves of the
environment. -/

namespace Sys2Proof.Proofs.Sequencer

open Sys2Proof Sys2Proof.Machine
open Sys2Proof.Proofs.RegisterAccess (rasWord_fields wrvCode_eq mbvCode_eq)
open Sys2Proof.Proofs.CommandWords (encode_rdr stepRunsTheDecodedCommand)

/-! ## The rows of the step relation, field by field -/

section Rows

variable (s : State)

@[simp] theorem rdrPrimary_host : (rdrPrimary s).host = s.host := by simp [rdrPrimary]
@[simp] theorem rdrPrimary_ras :
    (rdrPrimary s).ras = { s.ras with rb := s.busAnswer s.ras.addr, result := .ok, phase := .idle } := by simp [rdrPrimary]
@[simp] theorem rdrPrimary_trace :
    (rdrPrimary s).trace = s.trace ++ [tRead s.params s.ras.addr (s.busAnswer s.ras.addr)] := by simp [rdrPrimary]
@[simp] theorem rdrPrimary_responses :
    (rdrPrimary s).responses = s.responses ++ [⟨.ok, .byte (s.busAnswer s.ras.addr)⟩] := by simp [rdrPrimary]

@[simp] theorem wrvPrimary_host : (wrvPrimary s).host = s.host := by simp [wrvPrimary]
@[simp] theorem wrvPrimary_ras : (wrvPrimary s).ras = { s.ras with phase := .readback } := by simp [wrvPrimary]
@[simp] theorem wrvPrimary_trace : (wrvPrimary s).trace = s.trace ++ [tWrite s.params s.ras.addr s.ras.value] := by
  simp [wrvPrimary]
@[simp] theorem wrvPrimary_responses : (wrvPrimary s).responses = s.responses := by simp [wrvPrimary]

@[simp] theorem mbvPrimary_host : (mbvPrimary s).host = s.host := by simp [mbvPrimary]
@[simp] theorem mbvPrimary_ras : (mbvPrimary s).ras = { s.ras with phase := .readback } := by simp [mbvPrimary]
@[simp] theorem mbvPrimary_trace :
    (mbvPrimary s).trace = s.trace ++ [tBitmod s.params s.ras.addr s.ras.mask s.ras.value] := by simp [mbvPrimary]
@[simp] theorem mbvPrimary_responses : (mbvPrimary s).responses = s.responses := by simp [mbvPrimary]

@[simp] theorem rasReadback_host : (rasReadback s).host = s.host := by simp [rasReadback]
@[simp] theorem rasReadback_ras : (rasReadback s).ras = { s.ras with
    rb := s.busAnswer s.ras.addr, result := verifyCode s.ras (s.busAnswer s.ras.addr), phase := .idle } := by
  simp [rasReadback]
@[simp] theorem rasReadback_trace :
    (rasReadback s).trace = s.trace ++ [tRead s.params s.ras.addr (s.busAnswer s.ras.addr)] := by simp [rasReadback]
@[simp] theorem rasReadback_responses :
    (rasReadback s).responses = s.responses ++ [⟨verifyCode s.ras (s.busAnswer s.ras.addr), .empty⟩] := by
  simp [rasReadback]

end Rows

section RowOf

variable {s : State}

theorem rasStep_rdr (hphase : s.ras.phase = .primary) (hop : s.ras.op = .rdr) : rasStep s = rdrPrimary s := by
  simp only [rasStep, hphase, hop]

theorem rasStep_wrv (hphase : s.ras.phase = .primary) (hop : s.ras.op = .wrv) : rasStep s = wrvPrimary s := by
  simp only [rasStep, hphase, hop]

theorem rasStep_mbv (hphase : s.ras.phase = .primary) (hop : s.ras.op = .mbv) : rasStep s = mbvPrimary s := by
  simp only [rasStep, hphase, hop]

theorem rasStep_readback (hphase : s.ras.phase = .readback) : rasStep s = rasReadback s := by
  simp only [rasStep, hphase]

/-- The first row of a verifying operation writes no latch but the phase. -/
theorem rasStep_verifying (hphase : s.ras.phase = .primary) (hop : s.ras.op ≠ .rdr) :
    (rasStep s).ras = { s.ras with phase := .readback } := by
  cases h : s.ras.op with
  | rdr => exact absurd h hop
  | wrv => rw [rasStep_wrv hphase h, wrvPrimary_ras]
  | mbv => rw [rasStep_mbv hphase h, mbvPrimary_ras]

/-- The compare of a verifying operation, both written out. -/
theorem verifyCode_eq {r : Ras} (hop : r.op ≠ .rdr) (b : Byte) : verifyCode r b =
    if r.op = .wrv then (if b = r.value then .ok else .fail)
    else (if b &&& r.mask = r.value &&& r.mask then .ok else .fail) := by
  cases h : r.op with
  | rdr => exact absurd h hop
  | wrv => simp [verifyCode, h, wrvCode_eq]
  | mbv => simp [verifyCode, h, mbvCode_eq]

/-- The host's moves stay out of the sequencer's way. -/
theorem rasStep_withHost (s : State) (h : List HostInput) : rasStep (s.withHost h) = (rasStep s).withHost h := by
  obtain ⟨_, ⟨phase, op, _, _, _, _, _⟩, _, _, _, _, _, periph, _, _, _⟩ := s
  cases phase with
  | idle => rfl
  | primary => cases op <;> cases periph <;> rfl
  | readback => cases periph <;> rfl

@[simp] theorem rasStep_host (s : State) : (rasStep s).host = s.host := by
  cases hphase : s.ras.phase with
  | idle => simp only [rasStep, hphase]
  | primary =>
    cases hop : s.ras.op with
    | rdr => rw [rasStep_rdr hphase hop, rdrPrimary_host]
    | wrv => rw [rasStep_wrv hphase hop, wrvPrimary_host]
    | mbv => rw [rasStep_mbv hphase hop, mbvPrimary_host]
  | readback => rw [rasStep_readback hphase, rasReadback_host]

/-- The only busy state without a row is the read-back of RDR. -/
theorem rasTick_of_row (hrow : s.ras.phase = .readback → s.ras.op ≠ .rdr) : rasTick s = .next (rasStep s) := by
  unfold rasTick
  split
  · rename_i hphase hop
    exact absurd hop (hrow hphase)
  · rfl

end RowOf

/-! ## The step of the busy block -/

section Busy

variable {s : State} {h : List HostInput}

/-- A host with no reset and no wait next leaves the busy block to its row. -/
theorem step_busy_pending (hbusy : s.ras.phase ≠ .idle) (hhost : ∀ m ∈ s.host.head?, m ≠ .blockReset ∧ m ≠ .wait) :
    step s = rasTick s := by
  rw [step_busy hbusy, busyStep]
  split
  · rename_i hh
    exact absurd rfl (hhost .blockReset (by simp [hh])).1
  · rename_i hh
    exact absurd rfl (hhost .wait (by simp [hh])).2
  · rfl

theorem step_busy_row (hbusy : s.ras.phase ≠ .idle) (hrow : s.ras.phase = .readback → s.ras.op ≠ .rdr)
    (hhost : ∀ m ∈ s.host.head?, m ≠ .blockReset ∧ m ≠ .wait) : step s = .next (rasStep s) :=
  (step_busy_pending hbusy hhost).trans (rasTick_of_row hrow)

/-- A host with nothing to present, or one that waits: what stays with it afterwards is `h`. -/
def Unattended (s : State) (h : List HostInput) : Prop := (s.host = [] ∧ h = []) ∨ s.host = .wait :: h

theorem step_idle_unattended (hhost : Unattended s h) (hidle : s.ras.phase = .idle) : step s = .next (s.withHost h) := by
  rw [step_idle hidle, idleStep]
  obtain ⟨hh, rfl⟩ | hh := hhost
  · rw [← hh, withHost_self]; simp only [hh]
  · simp only [hh]

theorem step_busy_unattended (hhost : Unattended s h) (hbusy : s.ras.phase ≠ .idle)
    (hrow : s.ras.phase = .readback → s.ras.op ≠ .rdr) : step s = .next (rasStep (s.withHost h)) := by
  obtain ⟨hh, rfl⟩ | hh := hhost
  · rw [← hh, withHost_self]
    exact step_busy_row hbusy hrow (by simp [hh])
  · rw [step_busy hbusy, busyStep]
    simp only [hh]
    exact rasTick_of_row hrow

end Busy

/-! ## Acceptance and runs -/

section Runs

variable {s t : State}

theorem step_present {w : CmdWord} {h : List HostInput} {i : Instr} (hidle : s.ras.phase = .idle)
    (hhost : s.host = .present w :: h) (hdecode : decode w = .instr i) : step s = acceptInstr i (s.withHost h) := by
  rw [step_idle hidle, idleStep]
  simp only [hhost, presentCommand, hdecode]

theorem run_zero : Host.Core.run Sys2Proof.core 0 s = .next s := rfl

theorem run_succ (hstep : step s = .next t) (k : Nat) :
    Host.Core.run Sys2Proof.core (k + 1) s = Host.Core.run Sys2Proof.core k t := by
  have hcore : Sys2Proof.core.step s = .next t := hstep
  simp only [Host.Core.run, hcore]

/-- A busy block whose host leaves it alone goes on to its next row. -/
theorem run_row (hbusy : s.ras.phase ≠ .idle) (hrow : s.ras.phase = .readback → s.ras.op ≠ .rdr)
    (hhost : ∀ m ∈ s.host.head?, m ≠ .blockReset ∧ m ≠ .wait) (k : Nat) :
    Host.Core.run Sys2Proof.core (k + 1) s = Host.Core.run Sys2Proof.core k (rasStep s) :=
  run_succ (step_busy_row hbusy hrow hhost) k

/-- A verifying operation in PRIMARY has the two rows of its transactions before it. -/
theorem run_two_rows (hphase : s.ras.phase = .primary) (hop : s.ras.op ≠ .rdr)
    (hhost : ∀ m ∈ s.host.head?, m ≠ .blockReset ∧ m ≠ .wait) :
    Host.Core.run Sys2Proof.core 2 s = .next (rasReadback (rasStep s)) := by
  have hras := rasStep_verifying hphase hop
  rw [run_row (by simp [hphase]) (by simp [hphase]) hhost,
    run_row (by simp [hras]) (by simpa [hras] using hop) (by simpa using hhost), run_zero, rasStep_readback (by simp [hras])]

/-- Acceptance of a command starts the run of the rest. -/
theorem run_present {w : CmdWord} {h : List HostInput} {i : Instr} (hidle : s.ras.phase = .idle)
    (hhost : s.host = .present w :: h) (hdecode : decode w = .instr i) (haccept : acceptInstr i (s.withHost h) = .next t)
    (k : Nat) : Host.Core.run Sys2Proof.core (k + 1) s = Host.Core.run Sys2Proof.core k t :=
  run_succ ((step_present hidle hhost hdecode).trans haccept) k

end Runs

/-! ## What a RAS operation leaves of the environment -/

section Environment

variable {s t : State}

/-- RDR, WRV or MBV at the address `addr`, with whatever other operands. -/
def IsRasAt (addr : Byte) (i : Instr) : Prop :=
  i = .rdr addr ∨ (∃ value, i = .wrv addr value) ∨ ∃ mask value, i = .mbv addr mask value

/-- It reads the bus once. -/
theorem instrOp_script_draws {addr : Byte} {i : Instr} (hi : IsRasAt addr i) (s : State) :
    (instrOp i s).script = s.afterRead.script ∧ (instrOp i s).draws = s.afterRead.draws := by
  obtain rfl | ⟨value, rfl⟩ | ⟨mask, value, rfl⟩ := hi
  · exact ⟨rdrOp_script s addr, rdrOp_draws s addr⟩
  · exact ⟨wrvOp_script s addr value, wrvOp_draws s addr value⟩
  · exact ⟨mbvOp_script s addr mask value, mbvOp_draws s addr mask value⟩

/-- It writes at its own address or not at all. -/
theorem instrOp_sameMemoryBut {addr : Byte} {i : Instr} (hi : IsRasAt addr i) (s : State) :
    sameMemoryBut addr s (instrOp i s) := by
  intro x hx
  obtain rfl | ⟨value, rfl⟩ | ⟨mask, value, rfl⟩ := hi
  · exact congrArg (Memory.read · x) (rdrOp_mem s addr)
  · rw [instrOp, wrvOp_mem, periphWrite_mem_other s hx]
  · rw [instrOp, mbvOp_mem, periphWrite_mem_other s hx]

/-- No command reads a latch it has not written: other latches beforehand show in the latches only. -/
theorem instrOp_setRas (i : Instr) (s : State) (r : Ras) :
    (instrOp i (s.setRas r)).setRas (instrOp i s).ras = instrOp i s := by
  obtain ⟨_, _, _, _, _, _, _, periph, _, _, _⟩ := s
  cases i <;> cases periph <;> rfl

/-- Under the oracle the script's next byte is what RDR returns and what WRV and MBV compare. -/
theorem exec_of_scripted {b : Byte} {bs : List Byte} (hidle : s.ras.phase = .idle) (horacle : s.periph = .oracle)
    (hscript : s.script = b :: bs) (addr mask value : Byte) :
    (∃ t, exec (.rdr addr) s = .next t ∧ t.responses = s.responses ++ [⟨.ok, .byte b⟩]) ∧
    (∃ t, exec (.wrv addr value) s = .next t ∧
      t.responses = s.responses ++ [⟨if b = value then .ok else .fail, .empty⟩]) ∧
    (∃ t, exec (.mbv addr mask value) s = .next t ∧
      t.responses = s.responses ++ [⟨if b &&& mask = value &&& mask then .ok else .fail, .empty⟩]) := by
  have hb : s.busAnswer addr = b := State.busAnswer_scripted horacle hscript addr
  refine ⟨⟨_, exec_idle hidle _, ?rdr⟩, ⟨_, exec_idle hidle _, ?wrv⟩, ⟨_, exec_idle hidle _, ?mbv⟩⟩
  case rdr => rw [instrOp, rdrOp_responses, hb]
  case wrv => rw [instrOp, wrvOp_responses, wrvRb_oracle horacle, hb, wrvCode_eq]
  case mbv => rw [instrOp, mbvOp_responses, mbvRb_oracle horacle, hb, mbvCode_eq]

/-- Under the bit-modify's mask the register then holds the value. -/
theorem bitmod_and_mask (old mask value : Byte) : (old &&& ~~~mask ||| value &&& mask) &&& mask = value &&& mask := by
  have hold : old &&& ~~~mask &&& mask = 0#8 := by
    rw [BitVec.and_assoc, BitVec.and_comm (~~~mask), BitVec.and_not_self]
    exact BitVec.and_zero
  rw [BitVec.and_or_distrib_right, hold, BitVec.zero_or, BitVec.and_assoc, BitVec.and_self]

end Environment

/-! ## The obligations -/

/-- Settles O9: the word's fields, then latches, trace and response as the laws of `rdrOp` give them. -/
theorem rdrReadsOneRegister : Obligations.RdrReadsOneRegister := by
  intro addr s hidle
  rw [encode_rdr]
  exact ⟨rasWord_fields _ _ _ _, rdrOp addr s, exec_idle hidle _, rdrOp_ras _ _, rdrOp_trace _ _, rdrOp_responses _ _⟩

/-- Settles O13: a RAS operation is a run of the block, so `BlockRun` gives the frame; memory and script by what it does to the bus. -/
theorem rasOperationsFrame : Obligations.RasOperationsFrame := by
  intro addr mask value i s t hi hexec
  obtain ⟨-, rfl⟩ := exec_next hexec
  have run := BlockRun.instr i s
  have hat : IsRasAt addr i := hi.imp_right (Or.imp (fun h => ⟨value, h⟩) (fun h => ⟨mask, value, h⟩))
  obtain ⟨hscript, hdraws⟩ := instrOp_script_draws hat s
  refine ⟨⟨run.params, run.results, run.pulses, run.host, run.periph⟩, instrOp_sameMemoryBut hat s, run.trace, run.responses,
    ?rdr, fun horacle => ⟨run.oracle horacle, ?_⟩, fun hideal => ?_⟩
  case rdr =>
    rintro rfl
    exact rdrOp_mem s addr
  · rw [hscript, (State.afterRead_oracle horacle).1]
  · rw [hscript, hdraws, State.afterRead_ideal hideal]
    exact ⟨rfl, rfl⟩

/-- Settles O14: the step is the acceptance of the decoded command, which writes the latches only. -/
theorem acceptanceLatchesOperands : Obligations.AcceptanceLatchesOperands :=
  fun _ _ _ _ _ _ hidle hhost =>
    ⟨fun hdecode => step_present hidle hhost hdecode, fun hdecode => step_present hidle hhost hdecode,
      fun hdecode => step_present hidle hhost hdecode⟩

/-- Settles O15: with no host in its way the block takes the row its phase and operation select. -/
theorem rasStepRows : Obligations.RasStepRows := by
  intro s h hhost
  have hstep (hbusy : s.ras.phase ≠ .idle) (hrow : s.ras.phase = .readback → s.ras.op ≠ .rdr) :
      step s = .next (rasStep (s.withHost h)) := step_busy_unattended hhost hbusy hrow
  refine ⟨step_idle_unattended hhost, fun hphase hop => ?rdr, fun hphase hop => ?wrv, fun hphase hop => ?mbv,
    fun hphase hop => ?readback⟩
  case rdr =>
    rw [hstep (by simp [hphase]) (by simp [hphase]), rasStep_rdr (s := s.withHost h) hphase hop]
    exact ⟨_, rfl, rdrPrimary_host _, rdrPrimary_ras _, rdrPrimary_trace _, rdrPrimary_responses _⟩
  case wrv =>
    rw [hstep (by simp [hphase]) (by simp [hphase]), rasStep_wrv (s := s.withHost h) hphase hop]
    exact ⟨_, rfl, wrvPrimary_host _, wrvPrimary_ras _, wrvPrimary_trace _, wrvPrimary_responses _⟩
  case mbv =>
    rw [hstep (by simp [hphase]) (by simp [hphase]), rasStep_mbv (s := s.withHost h) hphase hop]
    exact ⟨_, rfl, mbvPrimary_host _, mbvPrimary_ras _, mbvPrimary_trace _, mbvPrimary_responses _⟩
  case readback =>
    rw [hstep (by simp [hphase]) (fun _ => hop), rasStep_readback (s := s.withHost h) hphase]
    exact ⟨_, _, rfl, rasReadback_host _, verifyCode_eq hop _, rasReadback_ras _, rasReadback_trace _, rasReadback_responses _⟩

/-- Settles O16: acceptance, then one row a step, is how the operations run whole are defined; CODEC and BAM complete in acceptance. -/
theorem bigStepEqualsSmallSteps : Obligations.BigStepEqualsSmallSteps := by
  intro s w i h hidle hdecode hhead
  have hwhole : Host.Core.run Sys2Proof.core 1 { s with host := .command w :: h } = .next (instrOp i (s.withHost h)) :=
    run_succ ((stepRunsTheDecodedCommand { s with host := .command w :: h } w h i hidle rfl hdecode).trans
      (exec_idle (s := s.withHost h) hidle i)) 0
  rw [hwhole]
  have hidle' : (s.withHost h).ras.phase = .idle := hidle
  have hpresent {t : State} (haccept : acceptInstr i (s.withHost h) = .next t) (k : Nat) :
      Host.Core.run Sys2Proof.core (k + 1) { s with host := .present w :: h } = Host.Core.run Sys2Proof.core k t :=
    run_present (s := { s with host := .present w :: h }) hidle rfl hdecode haccept k
  cases i with
  | rdr addr =>
    rw [hpresent rfl, run_row (s := acceptRdr addr (s.withHost h)) (by simp [acceptRdr]) (by simp [acceptRdr]) hhead]
    rfl
  | wrv addr value =>
    rw [hpresent rfl, run_two_rows (s := acceptWrv addr value (s.withHost h)) rfl (by simp [acceptWrv]) hhead]
    rfl
  | mbv addr mask value =>
    rw [hpresent rfl, run_two_rows (s := acceptMbv addr mask value (s.withHost h)) rfl (by simp [acceptMbv]) hhead]
    rfl
  | enc id ext => exact hpresent (exec_idle hidle' (.enc id ext)) 0
  | dec sidh sidl eid8 eid0 => exact hpresent (exec_idle hidle' (.dec sidh sidl eid8 eid0)) 0
  | res kind index => exact hpresent (exec_idle hidle' (.res kind index)) 0

/-- Settles O17: RDR has one row left; a verifying operation has two from PRIMARY and one from READBACK. -/
theorem acceptedOperationFinishes : Obligations.AcceptedOperationFinishes := by
  intro s hwf hbusy hhost
  have hhead : ∀ m ∈ s.host.head?, m ≠ .blockReset ∧ m ≠ .wait := by simp [hhost]
  cases hphase : s.ras.phase with
  | idle => exact absurd hphase hbusy
  | primary =>
    cases hop : s.ras.op with
    | rdr =>
      refine ⟨1, rdrPrimary s, by decide, ?_, by simp, by simp, by simp⟩
      rw [run_row hbusy (by simp [hphase]) hhead, run_zero, rasStep_rdr hphase hop]
    | wrv =>
      refine ⟨2, rasReadback (wrvPrimary s), by decide, ?_, by simp, by simp, by simp⟩
      rw [run_two_rows hphase (by simp [hop]) hhead, rasStep_wrv hphase hop]
    | mbv =>
      refine ⟨2, rasReadback (mbvPrimary s), by decide, ?_, by simp, by simp, by simp⟩
      rw [run_two_rows hphase (by simp [hop]) hhead, rasStep_mbv hphase hop]
  | readback =>
    refine ⟨1, rasReadback s, by decide, ?_, by simp, by simp, by simp⟩
    rw [run_row hbusy (fun _ hop => by simp [Ras.wf, hphase, hop] at hwf) hhead, run_zero, rasStep_readback hphase]

/-- Settles O18: every command waits for `cmd_ready`. -/
theorem busyBlockTakesNoCommand : Obligations.BusyBlockTakesNoCommand := fun i _ hbusy => exec_busy hbusy i

/-- Settles O19: a move that is neither a reset nor a wait leaves the busy block to its row, which does not look at the host. -/
theorem busyBlockIgnoresTheHost : Obligations.BusyBlockIgnoresTheHost := by
  intro s t m h hbusy hhost hreset hwait hstep
  have htick : step s = rasTick s := step_busy_pending hbusy (by simpa [hhost] using ⟨hreset, hwait⟩)
  obtain ⟨rfl, hrow⟩ := rasTick_next hbusy (htick ▸ hstep)
  refine ⟨rasStep_host s, ?_⟩
  rw [step_busy_row (s := { s with host := [] }) hbusy (fun hphase hop => hrow ⟨hphase, hop⟩) (by simp)]
  exact congrArg Host.Outcome.next (rasStep_withHost s [])

/-- Settles O20: the reset is the host's move in either step, and writes the latches only. -/
theorem blockResetAbandons : Obligations.BlockResetAbandons := by
  intro s h hhost
  refine ⟨blockReset (s.withHost h), ?_, rfl, rfl, rfl, rfl, rfl, rfl, rfl, rfl⟩
  by_cases hidle : s.ras.phase = .idle
  · rw [step_idle hidle, idleStep, hhost]
  · rw [step_busy hidle, busyStep, hhost]

/-- Settles O21: the operations run from either latches differ in the latches only. -/
theorem oldLatchesAreUnobservable : Obligations.OldLatchesAreUnobservable := by
  intro i s t r hr hexec
  obtain ⟨-, rfl⟩ := exec_next hexec
  exact ⟨instrOp i (s.setRas r), exec_idle (s := s.setRas r) hr i, instrOp_setRas i s r⟩

/-- Settles O22: the script's next byte is the one each of the three operations reads. -/
theorem readByteIsFree : Obligations.ReadByteIsFree := by
  intro addr mask value b s hidle horacle
  exact exec_of_scripted (s := { s with script := b :: s.script }) hidle horacle rfl addr mask value

/-- Settles O23: the read-back returns what was just stored, which agrees with the value where the compare looks. -/
theorem idealPeripheralVerifies : Obligations.IdealPeripheralVerifies := by
  intro addr mask value s hidle hideal hmem
  refine ⟨⟨_, exec_idle hidle _, ?rdr⟩, ⟨_, exec_idle hidle _, ?wrvCode, ?wrvMem⟩, ⟨_, exec_idle hidle _, ?mbvCode, ?mbvMem⟩⟩
  case rdr => rw [instrOp, rdrOp_responses, State.busAnswer_ideal hideal]
  case wrvCode => rw [instrOp, wrvOp_responses, wrvRb_ideal hideal hmem, wrvCode_eq, if_pos rfl]
  case wrvMem => rw [instrOp, wrvOp_mem, State.periphWrite_ideal hideal, State.setMem_mem, Memory.read_write_same hmem]
  case mbvCode =>
    rw [instrOp, mbvOp_responses, mbvRb_ideal hideal hmem, mbvCode_eq, if_pos (bitmod_and_mask _ mask value)]
  case mbvMem => rw [instrOp, mbvOp_mem, State.periphWrite_ideal hideal, State.setMem_mem, Memory.read_write_same hmem]

end Sys2Proof.Proofs.Sequencer
end

section
/-! SUPPORT. Lines of assembler (30_encoding.md R87) and the places of the buffers' registers (43_buffer_index.md R141, R145; 00_scope.md
R6): each register at its distance from SIDH, inside its block's span. -/

namespace Sys2Proof.Proofs.Assembler

open Sys2Proof Sys2Proof.Machine
open Sys2Proof.Proofs.BufferIndex (add_ctrlOffset_below resolve_invalid)

/-! ## Lines -/

section Lines

variable {s : State} {h : List HostInput} {l : AsmLine} (hidle : s.ras.phase = .idle) (hhost : s.host = .line l :: h)
include hidle hhost

theorem step_line {i : Instr} (hl : l.assemble s.params = some i) : step s = exec i { s with host := h } := by
  rw [step_idle hidle, idleStep, hhost]
  simp only [runLine, State.withHost_params, hl]
  rfl

theorem step_line_refused (hl : l.assemble s.params = none) : step s = .refused .undefinedAddress := by
  rw [step_idle hidle, idleStep, hhost]
  simp only [runLine, State.withHost_params, hl]

end Lines

section Operands

variable {p : Params} {a : AddrOperand}

/-- Each form of line with an address runs its own command at the operand's address. -/
theorem assemble_of_eval {addr : Byte} (ha : a.eval p = some addr) (mask value : Byte) :
    AsmLine.assemble p (.rdr a) = some (.rdr addr) ∧ AsmLine.assemble p (.wrv a value) = some (.wrv addr value) ∧
      AsmLine.assemble p (.mbv a mask value) = some (.mbv addr mask value) := by
  simp only [AsmLine.assemble, ha, Option.map_some, and_self]

/-- Without an address none of them is a command. -/
theorem assemble_of_eval_none (ha : a.eval p = none) {mask value : Byte} {l : AsmLine}
    (hl : l = .rdr a ∨ l = .wrv a value ∨ l = .mbv a mask value) : l.assemble p = none := by
  obtain rfl | rfl | rfl := hl <;> simp only [AsmLine.assemble, ha, Option.map_none]

theorem eval_common {kind : Kind} {n S : Byte}
    (hS : some S = match kind with | .tx => p.txSidh[n.toNat]? | .rx => p.rxSidh[n.toNat]?) (f : CommonField) :
    AddrOperand.eval p (.field kind n (.common f)) = some (S + f.offset) := by
  cases kind with
  | tx => exact AddrOperand.eval_tx p hS.symm f
  | rx => exact AddrOperand.eval_rx p hS.symm f

end Operands

/-! ## The registers of a block, by their distance from SIDH -/

section Offsets

theorem offset_le (f : CommonField) : f.offset.toNat ≤ 12 := by
  cases f with
  | data k => simp only [CommonField.offset, BitVec.toNat_ofNat]; omega
  | _ => decide

/-- The common register at a distance from SIDH. -/
def commonFieldAt : Nat → CommonField
  | 0 => .sidh
  | 1 => .sidl
  | 2 => .eid8
  | 3 => .eid0
  | 4 => .dlc
  | k + 5 => .data (Fin.ofNat 8 k)

theorem commonFieldAt_offset (f : CommonField) : commonFieldAt f.offset.toNat = f := by
  cases f with
  | data k => fin_cases k <;> rfl
  | _ => rfl

theorem offset_inj {f f' : CommonField} (h : f.offset.toNat = f'.offset.toNat) : f = f' := by
  rw [← commonFieldAt_offset f, h, commonFieldAt_offset]

/-- A register's distance from SIDH: the common ones above it, CTRL where the parameter puts it. -/
def fieldOffset (p : Params) : Field → Int
  | .common f => f.offset.toNat
  | .ctrl => match p.rxCtrlPlace with
    | .below => -1
    | .above => 13

theorem fieldOffset_inj {p : Params} {f f' : Field} (h : fieldOffset p f = fieldOffset p f') : f = f' := by
  have apart (g : CommonField) : fieldOffset p (.common g) ≠ fieldOffset p .ctrl := by
    have hg := offset_le g
    cases hplace : p.rxCtrlPlace <;> simp only [fieldOffset, hplace] <;> omega
  cases f with
  | common g =>
    cases f' with
    | common g' => rw [offset_inj (Int.ofNat.inj h)]
    | ctrl => exact absurd h (apart g)
  | ctrl =>
    cases f' with
    | common g' => exact absurd h.symm (apart g')
    | ctrl => rfl

end Offsets

section Blocks

variable {p : Params}

/-- A block's span covers SIDH and the twelve registers above it. -/
theorem spanOf_common (p : Params) (kind : Kind) (S : Byte) :
    (spanOf p kind S).1 ≤ S.toNat ∧ (S.toNat : Int) + 12 ≤ (spanOf p kind S).2 := by
  cases kind with
  | tx => simp [spanOf, txSpan]
  | rx => cases hplace : p.rxCtrlPlace <;> simp [spanOf, rxSpan, hplace]

/-- And CTRL, in an RX block. -/
theorem spanOf_ctrl (p : Params) (S : Byte) : (spanOf p .rx S).1 ≤ S.toNat + fieldOffset p .ctrl ∧
    S.toNat + fieldOffset p .ctrl ≤ (spanOf p .rx S).2 := by
  cases hplace : p.rxCtrlPlace <;> simp only [spanOf, rxSpan, fieldOffset, hplace] <;> omega

/-- Where the sum stays inside the map, adding the offset of CTRL does not wrap. -/
theorem add_ctrlOffset_toNat {S : Byte} (hlow : 0 ≤ S.toNat + fieldOffset p .ctrl) (hhigh : S.toNat + fieldOffset p .ctrl ≤ 0x7D) :
    ((S + ctrlOffset p.rxCtrlPlace).toNat : Int) = S.toNat + fieldOffset p .ctrl := by
  cases hplace : p.rxCtrlPlace <;>
    simp only [fieldOffset, hplace, ctrlOffset, BitVec.toNat_add, BitVec.toNat_ofNat] at hlow hhigh ⊢ <;> omega

/-- No register's address wraps: it is SIDH plus the distance, in the block's span. -/
theorem blockAddr_place (hwf : p.wf = true) {kind : Kind} {index : Byte} {blk : RegisterBlock}
    (hblk : resolve p kind index = some blk) {f : Field} {a : Byte} (ha : blockAddr blk f = some a) :
    (a.toNat : Int) = blk.sidhAddr.toNat + fieldOffset p f ∧
      (spanOf p kind blk.sidhAddr).1 ≤ a.toNat ∧ a.toNat ≤ (spanOf p kind blk.sidhAddr).2 := by
  obtain ⟨hlow, hhigh⟩ := spans_inMap hwf (resolve_span p hblk)
  cases f with
  | common f =>
    obtain ⟨hfirst, hlast⟩ := spanOf_common p kind blk.sidhAddr
    have hf := offset_le f
    cases ha
    simp only [commonAddr, BitVec.toNat_add, fieldOffset]
    omega
  | ctrl =>
    have hctrl : blk.ctrlAddr = some a := ha
    rw [resolve_ctrl p hblk] at hctrl
    cases kind with
    | tx => cases hctrl
    | rx =>
      obtain ⟨hfirst, hlast⟩ := spanOf_ctrl p blk.sidhAddr
      cases hctrl
      rw [add_ctrlOffset_toNat (hlow.trans hfirst) (hlast.trans hhigh)]
      exact ⟨rfl, hfirst, hlast⟩

end Blocks

/-! ## The obligations -/

/-- Settles O7: the operand's address by its form, then the line's command by its own; CTRL of a TX buffer has no address. -/
theorem assemblerLineRuns : Obligations.AssemblerLineRuns := by
  intro s h hidle
  refine ⟨fun a addr mask value ha => ?address, fun id ext hhost => step_line hidle hhost rfl,
    fun sidh sidl eid8 eid0 hhost => step_line hidle hhost rfl, fun kind index hhost => step_line hidle hhost rfl,
    fun n mask value a l _ ha hl hhost => ?ctrl⟩
  case address =>
    have heval : a.eval s.params = some addr := by
      obtain rfl | ⟨rfl, rfl⟩ | ⟨rfl, rfl⟩ | ⟨rfl, rfl⟩ | ⟨rfl, rfl⟩ | ⟨kind, n, S, f, rfl, hS, rfl⟩ | ⟨n, S, rfl, hS, rfl⟩ := ha
      · rfl
      · rfl
      · rfl
      · rfl
      · rfl
      · rw [eval_common hS]
        cases f <;> simp [CommonField.offset]
      · rw [AddrOperand.eval_rxCtrl _ hS.symm]
        cases s.params.rxCtrlPlace with
        | below => exact congrArg some (add_ctrlOffset_below S)
        | above => rfl
    obtain ⟨hrdr, hwrv, hmbv⟩ := assemble_of_eval heval mask value
    exact ⟨fun hhost => step_line hidle hhost hrdr, fun hhost => step_line hidle hhost hwrv,
      fun hhost => step_line hidle hhost hmbv⟩
  case ctrl =>
    subst ha
    exact step_line_refused hidle hhost (assemble_of_eval_none (AddrOperand.eval_txCtrl _ n) hl)

/-- Settles O58: RES resolves no such buffer, so the name has no address. -/
theorem nameOfNoBufferIsRefused : Obligations.NameOfNoBufferIsRefused := by
  rintro s h kind n mask value f a l hidle htx hrx rfl hl hhost
  exact step_line_refused hidle hhost
    (assemble_of_eval_none (AddrOperand.eval_none s.params (resolve_invalid _ htx hrx) f) hl)

/-- Settles O36: a register's place in its block, whose span lies in the map. -/
theorem blockAddressesStayInTheMap : Obligations.BlockAddressesStayInTheMap := by
  intro p kind index blk hwf hblk
  obtain ⟨-, hmap⟩ := spans_inMap hwf (resolve_span p hblk)
  refine ⟨fun f => ?common, fun c hc => ?ctrl⟩
  case common =>
    obtain ⟨hplace, -, hlast⟩ := blockAddr_place hwf hblk (f := .common f) rfl
    simp only [fieldOffset] at hplace
    omega
  case ctrl =>
    obtain ⟨hplace, -, hlast⟩ := blockAddr_place hwf hblk (f := .ctrl) hc
    cases hctrl : p.rxCtrlPlace <;> simp only [fieldOffset, hctrl] at hplace <;> omega

/-- Settles O37: one address lies in one block only, so the buffer is the same; in a block the distance from SIDH tells the field. -/
theorem bufferRegistersAreDistinct : Obligations.BufferRegistersAreDistinct := by
  intro p k k' n n' f f' a hwf heval heval'
  obtain ⟨blk, hblk, ha⟩ := Option.bind_eq_some_iff.1 heval
  obtain ⟨blk', hblk', ha'⟩ := Option.bind_eq_some_iff.1 heval'
  obtain ⟨hplace, hlow, hhigh⟩ := blockAddr_place hwf hblk ha
  obtain ⟨hplace', hlow', hhigh'⟩ := blockAddr_place hwf hblk' ha'
  have hno : bufferNo k n = bufferNo k' n' := by
    by_contra hne
    have hdisj := spans_disjoint hwf (resolve_span p hblk) (resolve_span p hblk') hne
    omega
  obtain ⟨rfl, rfl⟩ := bufferNo_inj p hblk hblk' hno
  cases hblk.symm.trans hblk'
  exact ⟨rfl, rfl, fieldOffset_inj (p := p) (by omega)⟩

end Sys2Proof.Proofs.Assembler
end

section
/-! SUPPORT. The client sequences transaction by transaction (44_client_sequences.md R161 to R171): the bytes each reads, what it puts on the
bus, what it returns and which registers it can change; and the request-to-send byte as independent flags (00_scope.md R6). -/

namespace Sys2Proof.Proofs.Sequences

open Sys2Proof Sys2Proof.Machine
open Sys2Proof.Proofs.RegisterAccess (mbvCode_eq)
open Sys2Proof.Proofs.BufferIndex (add_ctrlOffset_below step_loadFrame step_readFrame)

/-! ## The mode field -/

theorem modeField_modeValue : ∀ c : BitVec 3, modeField (modeValue c) = c := by decide

theorem modeValue_low : ∀ c : BitVec 3, modeValue c &&& 0x1F#8 = 0#8 := by decide

theorem modeField_shift : ∀ b : Byte, (modeField b).setWidth 8 = b >>> 5 := by decide

/-! ## SWMODE -/

section Swmode

variable (mode : Mode) (s : State)

/-- The byte the read-back of CONTROL returns. -/
def controlByte : Byte := mbvRb s.params.addrControl 0xE0#8 (modeValue (s.params.modeCode mode)) s

/-- The byte the read of STATUS returns. -/
def statusByte : Byte := (swmodeRequest mode s).busAnswer s.params.addrStatus

theorem swmodeRequest_result : (swmodeRequest mode s).ras.result =
    mbvCode 0xE0#8 (modeValue (s.params.modeCode mode)) (controlByte mode s) := by
  rw [swmodeRequest, mbvOp_ras, controlByte]

theorem swmodeOps_rb : (swmodeOps mode s).ras.rb = statusByte mode s := by
  rw [swmodeOps, rdrOp_ras, statusByte]

/-- The result SWMODE returns: the two bytes and the free value of the third case decide. -/
def swmodeResult : ResultCode :=
  swmodeCode (modeField (statusByte mode s)) (s.params.modeCode mode)
    (mbvCode 0xE0#8 (modeValue (s.params.modeCode mode)) (controlByte mode s))
    (Config.swmodeThirdCase (swmodeOps mode s).draws)

/-- SWMODE is its two operations, at most a draw, and the result. -/
theorem swmode_eq : ∃ u, (u = swmodeOps mode s ∨ u = (swmodeOps mode s).drew) ∧
    swmode mode s = u.finish ⟨swmodeResult mode s, none⟩ := by
  unfold swmode swmodeResult
  simp only [swmodeRequest_result, swmodeOps_rb]
  split
  · exact ⟨_, .inr rfl, rfl⟩
  · exact ⟨_, .inl rfl, rfl⟩

theorem swmodeOps_trace : (swmodeOps mode s).trace = s.trace ++
    [tBitmod s.params s.params.addrControl 0xE0#8 (modeValue (s.params.modeCode mode)),
      tRead s.params s.params.addrControl (controlByte mode s), tRead s.params s.params.addrStatus (statusByte mode s)] := by
  simp [swmodeOps, swmodeRequest, controlByte, statusByte]

theorem swmode_trace : (swmode mode s).trace = s.trace ++
    [tBitmod s.params s.params.addrControl 0xE0#8 (modeValue (s.params.modeCode mode)),
      tRead s.params s.params.addrControl (controlByte mode s), tRead s.params s.params.addrStatus (statusByte mode s)] := by
  obtain ⟨u, rfl | rfl, h⟩ := swmode_eq mode s <;> rw [h, ← swmodeOps_trace] <;> rfl

theorem swmode_results : (swmode mode s).results = s.results ++ [⟨swmodeResult mode s, none⟩] := by
  have hops : (swmodeOps mode s).results = s.results := by simp [swmodeOps, swmodeRequest]
  obtain ⟨u, rfl | rfl, h⟩ := swmode_eq mode s <;> rw [h, ← hops] <;> rfl

/-- Only the bit-modify writes, at CONTROL. -/
theorem swmode_sameMemoryBut : sameMemoryBut s.params.addrControl s (swmode mode s) := by
  have hops : sameMemoryBut s.params.addrControl s (swmodeOps mode s) := fun x hx => by
    rw [swmodeOps, rdrOp_mem, swmodeRequest, mbvOp_mem, periphWrite_mem_other s hx]
  obtain ⟨u, rfl | rfl, h⟩ := swmode_eq mode s <;> rw [h] <;> exact hops

variable {mode s}

theorem swmodeResult_fail (h : modeField (statusByte mode s) ≠ s.params.modeCode mode) : swmodeResult mode s = .fail := by
  simp [swmodeResult, swmodeCode, h]

theorem swmodeResult_ok (hstatus : modeField (statusByte mode s) = s.params.modeCode mode)
    (hcontrol : controlByte mode s &&& 0xE0#8 = modeValue (s.params.modeCode mode) &&& 0xE0#8) : swmodeResult mode s = .ok := by
  simp [swmodeResult, swmodeCode, hstatus, mbvCode_eq, hcontrol]

theorem step_swmode {h : List HostInput} (hidle : s.ras.phase = .idle) (hhost : s.host = .swmode mode :: h) :
    step s = .next (swmode mode (s.withHost h)) := by
  rw [step_idle hidle, idleStep, hhost]

end Swmode

/-! ## RESET -/

theorem step_reset {s : State} {h : List HostInput} (hidle : s.ras.phase = .idle) (hhost : s.host = .reset :: h) :
    step s = .next (resetPeripheral (s.withHost h)) := by
  rw [step_idle hidle, idleStep, hhost]

/-! ## LOADFRAME -/

section LoadFrame

/-- LOADFRAME masks the length to the nibble it is written in. -/
theorem ofNat_and_nibble (n : Nat) : BitVec.ofNat 8 n &&& 0x0F#8 = BitVec.ofNat 8 (n % 16) := by
  apply BitVec.eq_of_toNat_eq
  simp only [BitVec.toNat_and, BitVec.toNat_ofNat]
  exact (Nat.and_two_pow_sub_one_eq_mod _ 4).trans (by omega)

/-- The thirteen writes with their addresses and values written out. -/
theorem loadWrites_eq (S : Byte) (f : CanFrame) : loadWrites ⟨S, none⟩ f =
    [(S, (encodeId f.id f.isExtended).sidh), (S + 1#8, (encodeId f.id f.isExtended).sidl),
      (S + 2#8, (encodeId f.id f.isExtended).eid8), (S + 3#8, (encodeId f.id f.isExtended).eid0),
      (S + 4#8, BitVec.ofNat 8 (f.dataLength % 16) ||| if f.isRemoteFrame then 0x40#8 else 0#8)] ++
    (List.finRange 8).map fun i => (S + BitVec.ofNat 8 (5 + i.val), if i.val < f.dataLength then f.data[i] else 0#8) := by
  rw [loadWrites, ← ofNat_and_nibble, show List.finRange 8 = dataIndices by decide]
  simp only [commonAddr, CommonField.offset, BitVec.add_zero, dlcByte, dataByte]

/-- Every register LOADFRAME writes lies at SIDH + 0 to SIDH + 12. -/
theorem loadWrites_addr {S : Byte} {f : CanFrame} {w : Byte × Byte} (hw : w ∈ loadWrites ⟨S, none⟩ f) :
    ∃ k ≤ 12, w.1 = S + BitVec.ofNat 8 k := by
  rw [loadWrites_eq, List.mem_append, List.mem_map] at hw
  obtain hw | ⟨i, -, rfl⟩ := hw
  · simp only [List.mem_cons, List.not_mem_nil, or_false] at hw
    obtain rfl | rfl | rfl | rfl | rfl := hw
    · exact ⟨0, by decide, (BitVec.add_zero S).symm⟩
    · exact ⟨1, by decide, rfl⟩
    · exact ⟨2, by decide, rfl⟩
    · exact ⟨3, by decide, rfl⟩
    · exact ⟨4, by decide, rfl⟩
  · exact ⟨5 + i.val, by omega, rfl⟩

variable {s : State} {index S : Byte} (hS : s.params.txSidh[index.toNat]? = some S) (f : CanFrame)
include hS

theorem resolve_tx_of_entry : resolve s.params .tx index = some ⟨S, none⟩ := by
  rw [resolve, hS, Option.map_some]

/-- The state in which LOADFRAME starts to write: RES and ENC have answered. -/
theorem loadFrame_valid : loadFrame index f s =
    (wrvAll (loadWrites ⟨S, none⟩ f) (encOp f.id f.isExtended (resOp .tx index s))).finish
      ⟨wrvAllCode (loadWrites ⟨S, none⟩ f) (encOp f.id f.isExtended (resOp .tx index s)), none⟩ := by
  rw [loadFrame, resolve_tx_of_entry hS]

/-- LOADFRAME changes no register but the thirteen. -/
theorem loadFrame_mem_other {x : Nat} (hx : ∀ k : Nat, k ≤ 12 → x ≠ (S + BitVec.ofNat 8 k).toNat) :
    Memory.read (loadFrame index f s).mem x = Memory.read s.mem x := by
  rw [loadFrame_valid hS, State.finish_mem, wrvAll_mem_other]
  · rfl
  · intro w hw
    obtain ⟨k, hk, haddr⟩ := loadWrites_addr hw
    rw [haddr]
    exact hx k hk

end LoadFrame

/-! ## READFRAME -/

section ReadFrame

/-- The frame's data bytes are the bytes read, and zero where none was. -/
theorem frameData_getElem (bytes : List Byte) (i : Fin 8) : (frameData bytes)[i] = bytes.getD i.val 0#8 := by
  fin_cases i <;> rfl

/-- Addresses beyond the bytes there are do not count. -/
theorem zip_take_length {α β : Type} (as : List α) (bs : List β) : (as.take bs.length).zip bs = as.zip bs := by
  have htake : (as.zip bs).take bs.length = (as.take bs.length).zip (bs.take bs.length) := List.take_zipWith
  rw [List.take_length, List.take_of_length_le (by simp [List.length_zip])] at htake
  exact htake.symm

variable (index : Byte) (blk : RegisterBlock) (C : Byte) (s : State)

/-- After the reads of CTRL and of the identifier, decoded. -/
def idRead : State :=
  decOp (imageOf (rdrAllBytes (idAddrs blk) (rdrOp C s))) (rdrAll (idAddrs blk) (rdrOp C s))

/-- After the read of DLC. -/
def dlcRead : State := rdrOp (commonAddr blk .dlc) (idRead blk C s)

/-- The length that DLC carried. -/
def lengthRead : Nat := dlcLength (dlcRead blk C s).ras.rb

/-- The addresses of the data registers below that length. -/
def dataAddrs : List Byte := (readIndices (lengthRead blk C s)).map fun i => commonAddr blk (.data i)

/-- After the reads of the data registers. -/
def dataRead : State := rdrAll (dataAddrs blk C s) (dlcRead blk C s)

/-- After the flag clear: READFRAME's last state, before it returns. -/
def flagCleared : State :=
  mbvOp s.params.addrIntflag (s.params.rxPendingMask[index.toNat]?.getD 0#8) 0x00#8 (dataRead blk C s)

/-- The frame it returns. -/
def frameRead : CanFrame where
  id := imageId (imageOf (rdrAllBytes (idAddrs blk) (rdrOp C s)))
  isExtended := imageExt (imageOf (rdrAllBytes (idAddrs blk) (rdrOp C s)))
  isRemoteFrame := remoteFlag s.params (rdrOp C s).ras.rb
  dataLength := lengthRead blk C s
  data := frameData (rdrAllBytes (dataAddrs blk C s) (dlcRead blk C s))

theorem readBlock_eq : readBlock index blk C s = (flagCleared index blk C s).finish ⟨.ok, some (frameRead blk C s)⟩ := rfl

theorem idRead_run : BlockRun s (idRead blk C s) := (BlockRun.rdr _ _).trans ((BlockRun.rdrAll _ _).trans (.dec _ _))

theorem dlcRead_run : BlockRun s (dlcRead blk C s) := (idRead_run blk C s).trans (.rdr _ _)

theorem dataRead_run : BlockRun s (dataRead blk C s) := (dlcRead_run blk C s).trans (.rdrAll _ _)

theorem flagCleared_run : BlockRun s (flagCleared index blk C s) := (dataRead_run blk C s).trans (.mbv _ _ _ _)

theorem idRead_trace : ∃ ctrl b0 b1 b2 b3 : Byte, ctrl = (rdrOp C s).ras.rb ∧
    rdrAllBytes (idAddrs blk) (rdrOp C s) = [b0, b1, b2, b3] ∧
    (idRead blk C s).trace = s.trace ++ [tRead s.params C ctrl, tRead s.params (commonAddr blk .sidh) b0,
      tRead s.params (commonAddr blk .sidl) b1, tRead s.params (commonAddr blk .eid8) b2,
      tRead s.params (commonAddr blk .eid0) b3] := by
  refine ⟨_, _, _, _, _, rfl, rfl, ?_⟩
  simp [idRead, decOp, idAddrs, rdrAll]

theorem dlcRead_trace : ∃ dlc : Byte, dlc = (dlcRead blk C s).ras.rb ∧
    (dlcRead blk C s).trace = (idRead blk C s).trace ++ [tRead s.params (commonAddr blk .dlc) dlc] :=
  ⟨_, rfl, by rw [dlcRead, rdrOp_trace, rdrOp_ras, (idRead_run blk C s).params]⟩

theorem dataRead_bytes_length :
    (rdrAllBytes (dataAddrs blk C s) (dlcRead blk C s)).length = min (lengthRead blk C s) 8 := by
  simp [rdrAllBytes_length, dataAddrs, readIndices_eq, dataIndices]

theorem dataRead_trace : (dataRead blk C s).trace = (dlcRead blk C s).trace ++
    ((dataIndices.map fun i => commonAddr blk (.data i)).zip (rdrAllBytes (dataAddrs blk C s) (dlcRead blk C s))).map
      fun x => tRead s.params x.1 x.2 := by
  have haddrs : dataAddrs blk C s = (dataIndices.map fun i => commonAddr blk (.data i)).take
      (rdrAllBytes (dataAddrs blk C s) (dlcRead blk C s)).length := by
    rw [dataRead_bytes_length, dataAddrs, readIndices_eq, List.map_take]
  rw [dataRead, rdrAll_trace, (dlcRead_run blk C s).params, 
    ← zip_take_length (dataIndices.map _), ← haddrs]

theorem flagCleared_trace : ∃ rb : Byte, (flagCleared index blk C s).trace = (dataRead blk C s).trace ++
    [tBitmod s.params s.params.addrIntflag (s.params.rxPendingMask[index.toNat]?.getD 0#8) 0x00#8,
      tRead s.params s.params.addrIntflag rb] :=
  ⟨_, by rw [flagCleared, mbvOp_trace, (dataRead_run blk C s).params]⟩

/-- The flag clear is READFRAME's only write. -/
theorem readBlock_sameMemoryBut : sameMemoryBut s.params.addrIntflag s (readBlock index blk C s) := by
  have hdata : (dataRead blk C s).mem = s.mem := by
    rw [dataRead, rdrAll_mem, dlcRead, rdrOp_mem, idRead, decOp, State.respond_mem, rdrAll_mem, rdrOp_mem]
  intro x hx
  rw [readBlock_eq, State.finish_mem, flagCleared, mbvOp_mem, periphWrite_mem_other _ hx, hdata]

/-- What READFRAME puts on the bus and the frame it returns, by the bytes the bus answered. -/
theorem readBlock_spec : ∃ (ctrl b0 b1 b2 b3 dlc rb : Byte) (data : List Byte), data.length = min (dlcLength dlc) 8 ∧
      (readBlock index blk C s).trace = s.trace ++
        [tRead s.params C ctrl, tRead s.params (commonAddr blk .sidh) b0, tRead s.params (commonAddr blk .sidl) b1,
          tRead s.params (commonAddr blk .eid8) b2, tRead s.params (commonAddr blk .eid0) b3,
          tRead s.params (commonAddr blk .dlc) dlc] ++
        ((dataIndices.map fun i => commonAddr blk (.data i)).zip data).map (fun x => tRead s.params x.1 x.2) ++
        [tBitmod s.params s.params.addrIntflag (s.params.rxPendingMask[index.toNat]?.getD 0#8) 0x00#8,
          tRead s.params s.params.addrIntflag rb] ∧
      frameRead blk C s = ⟨imageId ⟨b0, b1, b2, b3⟩, b1.getLsbD 3, remoteFlag s.params ctrl, dlcLength dlc, frameData data⟩ := by
  obtain ⟨ctrl, b0, b1, b2, b3, hctrl, hid, htrace⟩ := idRead_trace blk C s
  obtain ⟨dlc, hdlc, hdlcTrace⟩ := dlcRead_trace blk C s
  obtain ⟨rb, hclear⟩ := flagCleared_trace index blk C s
  refine ⟨ctrl, b0, b1, b2, b3, dlc, rb, rdrAllBytes (dataAddrs blk C s) (dlcRead blk C s), ?length, ?trace, ?frame⟩
  case length => rw [dataRead_bytes_length, lengthRead, hdlc]
  case trace =>
    rw [readBlock_eq, State.finish_trace, hclear, dataRead_trace, hdlcTrace, htrace]
    simp
  case frame =>
    rw [frameRead, hid, ← hctrl, lengthRead, ← hdlc]
    rfl

end ReadFrame

section ReadFrameValid

variable {s : State} {index S : Byte}

theorem resolve_rx_of_entry (hS : s.params.rxSidh[index.toNat]? = some S) :
    resolve s.params .rx index = some ⟨S, some (S + ctrlOffset s.params.rxCtrlPlace)⟩ := by
  rw [resolve, hS, Option.map_some]

/-- On a valid index READFRAME reads the block with its CTRL, after RES has answered. -/
theorem readFrame_valid (hS : s.params.rxSidh[index.toNat]? = some S) : readFrame index s =
    .next (readBlock index ⟨S, some (S + ctrlOffset s.params.rxCtrlPlace)⟩ (S + ctrlOffset s.params.rxCtrlPlace)
      (resOp .rx index s)) := by
  rw [readFrame, resolve_rx_of_entry hS]
  rfl

theorem readFrame_sameMemoryBut {t : State} (h : readFrame index s = .next t) : sameMemoryBut s.params.addrIntflag s t := by
  obtain ⟨-, hnext⟩ | ⟨blk, C, -, -, hnext⟩ := readFrame_eq index s <;> rw [hnext] at h <;> cases h
  · exact fun _ _ => rfl
  · exact readBlock_sameMemoryBut index blk C (resOp .rx index s)

end ReadFrameValid

/-! ## The request-to-send byte -/

section Rts

theorem oneBit_iff_mem (m : Byte) : oneBit m = true ↔ m ∈ [0x01#8, 0x02#8, 0x04#8, 0x08#8, 0x10#8, 0x20#8, 0x40#8, 0x80#8] :=
  List.contains_iff_mem

theorem oneBit_ne_zero {m : Byte} (h : oneBit m = true) : m ≠ 0#8 := by
  rintro rfl
  exact absurd h (by decide)

/-- Two different single bits have nothing in common. -/
theorem oneBit_disjoint {m n : Byte} (hm : oneBit m = true) (hn : oneBit n = true) (hne : m ≠ n) : m &&& n = 0#8 := by
  have bits : ∀ m ∈ [0x01#8, 0x02#8, 0x04#8, 0x08#8, 0x10#8, 0x20#8, 0x40#8, 0x80#8],
      ∀ n ∈ [0x01#8, 0x02#8, 0x04#8, 0x08#8, 0x10#8, 0x20#8, 0x40#8, 0x80#8], m ≠ n → m &&& n = 0#8 := by decide
  exact bits m ((oneBit_iff_mem m).1 hm) n ((oneBit_iff_mem n).1 hn) hne

variable {p : Params}

/-- A buffer's instruction byte, cut to a flag, is that buffer's own flag cut to it: what all three share is in no flag. -/
theorem instrRts_and_flag (p : Params) (n m : Fin 3) : p.instrRts[n] &&& p.rtsFlag m = p.rtsFlag n &&& p.rtsFlag m := by
  ext i hi
  simp only [Params.rtsFlag, BitVec.getElem_and, BitVec.getElem_not]
  generalize (p.instrRts[0][i] && p.instrRts[1][i] && p.instrRts[2][i]) = shared
  cases shared <;> simp

/-- So is the whole byte, buffer by buffer. -/
theorem rtsByte_and_flag (p : Params) (a b c : Bool) (m : Fin 3) : rtsByte p a b c &&& p.rtsFlag m =
    (if a then p.rtsFlag 0 &&& p.rtsFlag m else 0#8) ||| (if b then p.rtsFlag 1 &&& p.rtsFlag m else 0#8) |||
      (if c then p.rtsFlag 2 &&& p.rtsFlag m else 0#8) := by
  have cut (x : Bool) (n : Fin 3) : (if x then p.instrRts[n] else 0#8) &&& p.rtsFlag m =
      if x then p.rtsFlag n &&& p.rtsFlag m else 0#8 := by
    cases x with
    | true => exact instrRts_and_flag p n m
    | false => exact BitVec.zero_and
  rw [rtsByte, BitVec.and_or_distrib_right, BitVec.and_or_distrib_right]
  exact congrArg₂ _ (congrArg₂ _ (cut a 0) (cut b 1)) (cut c 2)

/-- The three flags of well-formed parameters: none is zero, no two share a bit. -/
theorem rtsFlags_independent (hwf : p.wf = true) : (∀ n, p.rtsFlag n ≠ 0#8) ∧ p.rtsFlag 0 &&& p.rtsFlag 1 = 0#8 ∧
    p.rtsFlag 0 &&& p.rtsFlag 2 = 0#8 ∧ p.rtsFlag 1 &&& p.rtsFlag 2 = 0#8 := by
  have hok := Params.wf_rtsFlagsOk hwf
  simp only [Params.rtsFlagsOk, Bool.and_eq_true, bne_iff_ne] at hok
  obtain ⟨⟨⟨⟨⟨h0, h1⟩, h2⟩, h01⟩, h02⟩, h12⟩ := hok
  refine ⟨fun n => ?_, oneBit_disjoint h0 h1 h01, oneBit_disjoint h0 h2 h02, oneBit_disjoint h1 h2 h12⟩
  fin_cases n
  · exact oneBit_ne_zero h0
  · exact oneBit_ne_zero h1
  · exact oneBit_ne_zero h2

theorem flag_inj {flag : Byte} (hflag : flag ≠ 0#8) {x x' : Bool} (h : (if x then flag else 0#8) = if x' then flag else 0#8) :
    x = x' :=
  match x, x' with
  | true, true | false, false => rfl
  | true, false => (hflag h).elim
  | false, true => (hflag h.symm).elim

end Rts

/-! ## The obligations -/

/-- Settles O39: the field is three bits and the byte eight; each fact is checked on all values. -/
theorem modeFieldLayout : Obligations.ModeFieldLayout := fun c b =>
  ⟨modeField_modeValue c, modeValue_low c, modeField_shift b⟩

/-- Settles O40: the trace by the two operations, the result by the two bytes they read. -/
theorem swmodeSequence : Obligations.SwmodeSequence := by
  intro mode s h hidle hhost
  obtain ⟨u, c, hrun, block, -⟩ := swmode_run mode (s.withHost h)
  refine ⟨controlByte mode (s.withHost h), statusByte mode (s.withHost h), modeValue (s.params.modeCode mode),
    swmodeResult mode (s.withHost h), swmode mode (s.withHost h), step_swmode hidle hhost, rfl, swmode_trace _ _,
    swmode_results _ _, swmodeResult_fail, swmodeResult_ok, swmodeCode_eq _ _ _ _, ?_, ?_, ?_, ?_⟩
  all_goals rw [hrun]
  · exact block.host
  · exact block.idle hidle
  · exact block.params
  · exact block.pulses

/-- Settles O41: one variant logs one entry, the other counts one pulse. -/
theorem resetSequence : Obligations.ResetSequence := by
  intro s h hidle hhost
  refine ⟨_, step_reset hidle hhost, ?_⟩
  cases hvariant : s.params.resetVariant with
  | instruction =>
    rw [reset_instruction (s := s.withHost h) hvariant]
    exact ⟨rfl, rfl, rfl, rfl, rfl, fun _ => ⟨rfl, rfl⟩, fun h => by cases h⟩
  | pin =>
    rw [reset_pin (s := s.withHost h) hvariant]
    exact ⟨rfl, rfl, rfl, rfl, rfl, fun h => (by cases h), fun _ => ⟨rfl, rfl⟩⟩

/-- Settles O42: after RES and ENC, the loop of thirteen writes; its trace and its code are those of `wrvAll`. -/
theorem loadFrameWritesThirteenRegisters : Obligations.LoadFrameWritesThirteenRegisters := by
  intro index f s h S hidle hhost hS
  have run := BlockRun.wrvAll (loadWrites ⟨S, none⟩ f) (encOp f.id f.isExtended (resOp .tx index (s.withHost h)))
  refine ⟨encodeId f.id f.isExtended, loadWrites ⟨S, none⟩ f,
    wrvAllRbs (loadWrites ⟨S, none⟩ f) (encOp f.id f.isExtended (resOp .tx index (s.withHost h))),
    loadFrame index f (s.withHost h), rfl, loadWrites_eq S f, wrvAllRbs_length _ _, step_loadFrame hidle hhost, ?_⟩
  rw [loadFrame_valid (s := s.withHost h) hS, ← wrvAllCode_eq]
  exact ⟨wrvAll_trace _ _, congrArg (· ++ _) run.results, run.host, run.idle hidle, run.params⟩

/-- Settles O43: the bytes are those `readBlock_spec` names, at the addresses of the block RES answers. -/
theorem readFrameReadsTheBuffer : Obligations.ReadFrameReadsTheBuffer := by
  intro index s h S m hidle hhost hS hm
  let C := S + ctrlOffset s.params.rxCtrlPlace
  let u := resOp .rx index (s.withHost h)
  obtain ⟨ctrl, b0, b1, b2, b3, dlc, rb, data, hlength, htrace, hframe⟩ := readBlock_spec index ⟨S, some C⟩ C u
  have run := flagCleared_run index ⟨S, some C⟩ C u
  refine ⟨C, ctrl, b0, b1, b2, b3, dlc, rb, dlcLength dlc, data, frameRead ⟨S, some C⟩ C u,
    readBlock index ⟨S, some C⟩ C u, ?place, rfl, hlength, ?step, ?trace, congrArg (· ++ _) run.results, ?frame⟩
  case place =>
    cases hplace : s.params.rxCtrlPlace with
    | below => simp only [C, hplace, add_ctrlOffset_below]
    | above => simp only [C, hplace, ctrlOffset]
  case step =>
    rw [step_readFrame hidle hhost, readFrame_valid (s := s.withHost h) hS]
    rfl
  case trace =>
    have hmask : u.params.rxPendingMask[index.toNat]?.getD 0#8 = m := congrArg (·.getD 0#8) hm
    rw [htrace, hmask]
    simp only [commonAddr, CommonField.offset, BitVec.add_zero]
    rfl
  case frame =>
    rw [hframe]
    exact ⟨rfl, rfl, rfl, rfl, frameData_getElem data, run.host, run.idle hidle, run.params⟩

/-- Settles O45: with no flag there is nothing to send. -/
theorem reqTxWithoutFlagIsRefused : Obligations.ReqTxWithoutFlagIsRefused := by
  intro s h hidle hhost
  rw [step_idle hidle, idleStep, hhost]
  rfl

/-- Settles O59: the byte cut to a buffer's flag is the flag or zero, as the buffer was asked for or not. -/
theorem rtsByteTellsTheFlags : Obligations.RtsByteTellsTheFlags := by
  intro p a b c a' b' c' hwf heq
  obtain ⟨hne, h01, h02, h12⟩ := rtsFlags_independent hwf
  have cut (m : Fin 3) := congrArg (· &&& p.rtsFlag m) heq
  simp only [rtsByte_and_flag] at cut
  have h0 := cut 0
  have h1 := cut 1
  have h2 := cut 2
  simp only [BitVec.and_self, h01, h02, h12, BitVec.and_comm (p.rtsFlag 1) (p.rtsFlag 0),
    BitVec.and_comm (p.rtsFlag 2) (p.rtsFlag 0), BitVec.and_comm (p.rtsFlag 2) (p.rtsFlag 1), ite_self, BitVec.or_zero,
    BitVec.zero_or] at h0 h1 h2
  exact ⟨flag_inj (hne 0) h0, flag_inj (hne 1) h1, flag_inj (hne 2) h2⟩

end Sys2Proof.Proofs.Sequences
end

section
/-! SUPPORT. The whole machine (10_state.md, 60_exceptions.md): the seven kinds of step, from which every law that holds of all steps
follows; how a step can stop; the invariant; the table of result codes and the counts of transactions. -/

namespace Sys2Proof.Proofs.WholeMachine

open Sys2Proof Sys2Proof.Machine
open Sys2Proof.Proofs.RegisterAccess (wrvCode_eq mbvCode_eq)
open Sys2Proof.Proofs.BufferIndex (step_loadFrame step_readFrame loadFrame_invalid readFrame_invalid)
open Sys2Proof.Proofs.ClientSequences (reqTx_of_flag step_reqTx)
open Sys2Proof.Proofs.CommandWords (stepRunsTheDecodedCommand undefinedCommandIsRefused)
open Sys2Proof.Proofs.CodecLaws (idInRange_imageId)
open Sys2Proof.Proofs.Sequencer
open Sys2Proof.Proofs.Sequences

/-! ## The frames READFRAME returns -/

/-- The frame READFRAME builds has a four-bit length, zero bytes beyond the bytes read, and DEC's identifier. -/
theorem frameAsRead_of_bytes (img : IdImage) (remote : Bool) (dlc : Byte) {bytes : List Byte}
    (hlength : bytes.length = min (dlcLength dlc) 8) :
    frameAsRead ⟨imageId img, imageExt img, remote, dlcLength dlc, frameData bytes⟩ = true := by
  simp only [frameAsRead, Bool.and_eq_true, List.all_eq_true, Bool.or_eq_true, decide_eq_true_eq, beq_iff_eq]
  refine ⟨⟨dlcLength_le dlc, idInRange_imageId img⟩, fun i _ => ?_⟩
  by_cases hi : i.val < dlcLength dlc
  · exact .inl hi
  · right
    rw [frameData_getElem, List.getD_eq_default]
    omega

/-! ## The seven kinds of step -/

/-- Every non-empty set of flags is among the seven listed. -/
theorem rtsByte_mem_rtsBytes (p : Params) {a b c : Bool} (h : (a || b || c) = true) : rtsByte p a b c ∈ rtsBytes p := by
  cases a <;> cases b <;> cases c <;> simp_all [rtsBytes]

/-- What a step does, by kind: the laws of all steps need no more than this. -/
inductive StepKind (s t : State) : Prop where
  /-- The idle block completes commands, or does nothing. -/
  | ran (h : List HostInput) (hidle : s.ras.phase = .idle) (run : BlockRun (s.withHost h) t)
  /-- A client sequence returns. -/
  | returned (h : List HostInput) (u : State) (r : ClientResult) (hidle : s.ras.phase = .idle) (run : BlockRun (s.withHost h) u)
      (hshape : r.shapeOk = true) (ht : t = u.finish r)
  /-- RESET asks for a pulse. -/
  | pulsed (h : List HostInput) (hidle : s.ras.phase = .idle)
      (ht : t = State.finish { s.withHost h with pulses := s.pulses + 1 } ⟨.ok, none⟩)
  /-- An undefined command is answered. -/
  | refused (w : CmdWord) (h : List HostInput) (why : Reject) (hidle : s.ras.phase = .idle)
      (hhost : s.host = .command w :: h ∨ s.host = .present w :: h) (hdecode : decode w = .reject why)
      (ht : t = refuseCommand (s.withHost h))
  /-- RDR, WRV or MBV is accepted: legal latches, in PRIMARY. -/
  | accepted (w : CmdWord) (h : List HostInput) (addr mask value : Byte) (r : Ras) (hidle : s.ras.phase = .idle)
      (hhost : s.host = .present w :: h)
      (hdecode : decode w = .instr (.rdr addr) ∨ decode w = .instr (.wrv addr value) ∨ decode w = .instr (.mbv addr mask value))
      (hphase : r.phase = .primary) (hwf : r.wf = true) (ht : t = (s.withHost h).setRas r)
  /-- The block is reset. -/
  | reset (h : List HostInput) (ht : t = blockReset (s.withHost h))
  /-- The busy block takes its row. -/
  | row (h : List HostInput) (hbusy : s.ras.phase ≠ .idle) (hrow : ¬(s.ras.phase = .readback ∧ s.ras.op = .rdr))
      (ht : t = rasStep (s.withHost h))

theorem step_kind {s t : State} (hstep : step s = .next t) : StepKind s t := by
  have ok : ClientResult.shapeOk ⟨.ok, none⟩ = true := rfl
  cases step_cases hstep with
  | stay hidle _ => exact .ran s.host hidle (.refl s)
  | wait hidle _ => exact .ran _ hidle (.refl _)
  | command hidle _ _ => exact .ran _ hidle (.instr _ _)
  | undefined hidle hhost hdecode => exact .refused _ _ _ hidle hhost hdecode rfl
  | @acceptRdr w h a hidle hhost hdecode =>
    exact .accepted w h a 0#8 0#8 _ hidle hhost (.inl hdecode) rfl rfl rfl
  | @acceptWrv w h a v hidle hhost hdecode =>
    exact .accepted w h a 0xFF#8 v _ hidle hhost (.inr (.inl hdecode)) rfl rfl rfl
  | @acceptMbv w h a m v hidle hhost hdecode =>
    exact .accepted w h a m v _ hidle hhost (.inr (.inr hdecode)) rfl rfl rfl
  | presentEnc hidle _ _ => exact .ran _ hidle (.enc _ _ _)
  | presentDec hidle _ _ => exact .ran _ hidle (.dec _ _)
  | presentRes hidle _ _ => exact .ran _ hidle (.res _ _ _)
  | line hidle _ _ => exact .ran _ hidle (.instr _ _)
  | blockReset _ => exact .reset _ rfl
  | @swmode mode h hidle _ =>
    obtain ⟨u, c, ht, run, hc⟩ := swmode_run mode (s.withHost h)
    refine .returned h u _ hidle run ?_ ht
    obtain rfl | rfl := hc <;> rfl
  | @reset h hidle _ =>
    cases hvariant : s.params.resetVariant with
    | instruction =>
      exact .returned h _ _ hidle (.log _ (formatOk_tReset _)) ok (reset_instruction (s := s.withHost h) hvariant)
    | pin => exact .pulsed h hidle (reset_pin (s := s.withHost h) hvariant)
  | @loadFrame n f h hidle _ =>
    obtain ⟨u, c, ht, run, hc⟩ := loadFrame_run n f (s.withHost h)
    exact .returned h u _ hidle run (by simpa [ClientResult.shapeOk] using hc) ht
  | @readInvalid n h hidle _ _ => exact .returned h _ _ hidle ((BlockRun.res _ _ _).trans (.drew _)) rfl rfl
  | @readFrame n h blk c hidle _ _ _ =>
    obtain ⟨u, img, remote, dlc, as, v, ht, hlength, run⟩ := readBlock_run n blk c (resOp .rx n (s.withHost h))
    refine .returned h u _ hidle ((BlockRun.res _ _ _).trans run) ?_ ht
    simp [ClientResult.shapeOk, frameAsRead_of_bytes img remote dlc ((rdrAllBytes_length as v).trans hlength)]
  | @reqTx a b c h hidle _ hflag =>
    exact .returned h _ _ hidle (.log _ (formatOk_tRts (rtsByte_mem_rtsBytes _ hflag))) ok rfl
  | tick hbusy hrow _ => exact .row _ hbusy hrow rfl

/-! ## The row of the busy block -/

section Row

variable {s : State}

/-- The four rows of the step relation. -/
theorem rasStep_row (hbusy : s.ras.phase ≠ .idle) (hrow : ¬(s.ras.phase = .readback ∧ s.ras.op = .rdr)) :
    (s.ras.phase = .primary ∧ s.ras.op = .rdr ∧ rasStep s = rdrPrimary s) ∨
    (s.ras.phase = .primary ∧ s.ras.op = .wrv ∧ rasStep s = wrvPrimary s) ∨
    (s.ras.phase = .primary ∧ s.ras.op = .mbv ∧ rasStep s = mbvPrimary s) ∨
    (s.ras.phase = .readback ∧ s.ras.op ≠ .rdr ∧ rasStep s = rasReadback s) := by
  cases hphase : s.ras.phase with
  | idle => exact absurd hphase hbusy
  | primary =>
    cases hop : s.ras.op with
    | rdr => exact .inl ⟨rfl, rfl, rasStep_rdr hphase hop⟩
    | wrv => exact .inr (.inl ⟨rfl, rfl, rasStep_wrv hphase hop⟩)
    | mbv => exact .inr (.inr (.inl ⟨rfl, rfl, rasStep_mbv hphase hop⟩))
  | readback => exact .inr (.inr (.inr ⟨rfl, fun hop => hrow ⟨hphase, hop⟩, rasStep_readback hphase⟩))

theorem verifyCode_ne_refused (r : Ras) (b : Byte) : verifyCode r b ≠ .refused := by
  have hok (x : Bool) : okIf x ≠ .refused := by cases x <;> decide
  cases hop : r.op <;> simp only [verifyCode, hop]
  · decide
  · exact hok _
  · exact hok _

/-- A row writes no parameter and no result, only adds to the trace, and answers with no `Refused`. -/
theorem rasStep_history (hbusy : s.ras.phase ≠ .idle) (hrow : ¬(s.ras.phase = .readback ∧ s.ras.op = .rdr)) :
    (rasStep s).params = s.params ∧ (rasStep s).results = s.results ∧ s.trace <+: (rasStep s).trace ∧
      ∃ rs, (rasStep s).responses = s.responses ++ rs ∧ ∀ r ∈ rs, r.code ≠ .refused := by
  obtain ⟨-, -, h⟩ | ⟨-, -, h⟩ | ⟨-, -, h⟩ | ⟨-, -, h⟩ := rasStep_row hbusy hrow <;> rw [h]
  · exact ⟨by simp [rdrPrimary], by simp [rdrPrimary], by simp, _, rdrPrimary_responses s, by simp⟩
  · exact ⟨by simp [wrvPrimary], by simp [wrvPrimary], by simp, [], by simp, by simp⟩
  · exact ⟨by simp [mbvPrimary], by simp [mbvPrimary], by simp, [], by simp, by simp⟩
  · exact ⟨by simp [rasReadback], by simp [rasReadback], by simp, _, rasReadback_responses s,
      by simpa using verifyCode_ne_refused _ _⟩

end Row

/-! ## What every step keeps of the history -/

/-- The parameters stand, and nothing recorded is lost. -/
structure Grows (s t : State) : Prop where
  params : t.params = s.params
  trace : s.trace <+: t.trace
  responses : s.responses <+: t.responses
  results : s.results <+: t.results

theorem step_grows {s t : State} (hstep : step s = .next t) : Grows s t := by
  cases step_kind hstep with
  | ran h _ run => exact ⟨run.params, run.trace, run.responses, by rw [run.results]; exact List.prefix_refl _⟩
  | returned h u r _ run _ ht =>
    subst ht
    exact ⟨run.params, run.trace, run.responses, by rw [State.finish_results, run.results]; exact List.prefix_append _ _⟩
  | pulsed h _ ht =>
    subst ht
    exact ⟨rfl, List.prefix_refl _, List.prefix_refl _, List.prefix_append _ _⟩
  | refused w h why _ _ _ ht =>
    subst ht
    exact ⟨rfl, List.prefix_refl _, List.prefix_append _ _, List.prefix_refl _⟩
  | accepted w h addr mask value r _ _ _ _ _ ht =>
    subst ht
    exact ⟨rfl, List.prefix_refl _, List.prefix_refl _, List.prefix_refl _⟩
  | reset h ht =>
    subst ht
    exact ⟨rfl, List.prefix_refl _, List.prefix_refl _, List.prefix_refl _⟩
  | row h hbusy hrow ht =>
    subst ht
    obtain ⟨hparams, hresults, htrace, rs, hresponses, -⟩ := rasStep_history (s := s.withHost h) hbusy hrow
    exact ⟨hparams, htrace, ⟨rs, hresponses.symm⟩, by rw [hresults]; exact List.prefix_refl _⟩

/-- A step that answers an undefined command aside, no answer is `Refused`. -/
theorem step_answers {s t : State} (hstep : step s = .next t) :
    (∃ (w : CmdWord) (h : List HostInput) (why : Reject),
      (s.host = .command w :: h ∨ s.host = .present w :: h) ∧ decode w = .reject why) ∨
    ∃ rs, t.responses = s.responses ++ rs ∧ ∀ r ∈ rs, r.code ≠ .refused := by
  cases step_kind hstep with
  | ran h _ run => exact .inr run.answers
  | returned h u r _ run _ ht => exact .inr (ht ▸ run.answers)
  | pulsed h _ ht => exact .inr ⟨[], by simp [ht], by simp⟩
  | refused w h why _ hhost hdecode _ => exact .inl ⟨w, h, why, hhost, hdecode⟩
  | accepted w h addr mask value r _ _ _ _ _ ht => exact .inr ⟨[], by simp [ht], by simp⟩
  | reset h ht => exact .inr ⟨[], by simp [ht, blockReset], by simp⟩
  | row h hbusy hrow ht =>
    obtain ⟨-, -, -, hanswers⟩ := rasStep_history (s := s.withHost h) hbusy hrow
    exact .inr (ht ▸ hanswers)

/-- Under the oracle no step of the idle block writes the ideal peripheral's memory. -/
theorem idle_step_oracle_mem {s t : State} (hidle : s.ras.phase = .idle) (horacle : s.periph = .oracle)
    (hstep : step s = .next t) : t.mem = s.mem := by
  cases step_kind hstep with
  | ran h _ run => exact run.oracle horacle
  | returned h u r _ run _ ht => exact ht ▸ run.oracle horacle
  | pulsed h _ ht => exact ht ▸ rfl
  | refused w h why _ _ _ ht => exact ht ▸ rfl
  | accepted w h addr mask value r _ _ _ _ _ ht => exact ht ▸ rfl
  | reset h ht => exact ht ▸ rfl
  | row h hbusy _ _ => exact absurd hidle hbusy

/-! ## The invariant -/

section Invariant

variable {s : State}

theorem inv_iff : s.inv = true ↔ s.ras.wf = true ∧ s.readbackNext = true ∧
    s.trace.all (Transaction.formatOk s.params) = true ∧ s.responses.all Response.shapeOk = true ∧
    s.results.all ClientResult.shapeOk = true ∧ Memory.wf s.mem = true := by
  simp only [State.inv, Bool.and_eq_true, and_assoc]

/-- Outside READBACK only legal latches are asked of the sequencer. -/
theorem readbackNext_of_ne (h : s.ras.phase ≠ .readback) : s.readbackNext = true := by
  simp [State.readbackNext, h]

theorem wf_of_idle {r : Ras} (h : r.phase = .idle) : r.wf = true := by
  simp only [Ras.wf, h]

/-- Latches that are legal and not in READBACK leave the rest of the invariant as it is. -/
theorem inv_setRas {r : Ras} (hinv : s.inv = true) (hwf : r.wf = true) (hphase : r.phase ≠ .readback) :
    (s.setRas r).inv = true := by
  obtain ⟨-, -, hrest⟩ := inv_iff.1 hinv
  exact inv_iff.2 ⟨hwf, readbackNext_of_ne hphase, hrest⟩

theorem inv_rasStep (hinv : s.inv = true) (hbusy : s.ras.phase ≠ .idle) (hrow : ¬(s.ras.phase = .readback ∧ s.ras.op = .rdr)) :
    (rasStep s).inv = true := by
  obtain ⟨hwf, hlast, htrace, hresponses, hresults, hmem⟩ := inv_iff.1 hinv
  obtain ⟨hphase, hop, h⟩ | ⟨hphase, hop, h⟩ | ⟨hphase, hop, h⟩ | ⟨hphase, hop, h⟩ := rasStep_row hbusy hrow <;> rw [h, inv_iff]
  · exact ⟨wf_of_idle (by simp), readbackNext_of_ne (by simp), by simp [rdrPrimary, htrace],
      by simp [hresponses, Response.shapeOk], by simpa [rdrPrimary] using hresults, by simpa [rdrPrimary] using hmem⟩
  · exact ⟨by simpa [Ras.wf, hphase, hop] using hwf, by simp [State.readbackNext, primaryOf, hop, wrvPrimary],
      by simp [wrvPrimary, htrace], by simpa using hresponses, by simpa [wrvPrimary] using hresults,
      by simpa [wrvPrimary, memWrite] using periphWrite_wf hmem _ _⟩
  · exact ⟨by simp [Ras.wf, hop], by simp [State.readbackNext, primaryOf, hop, mbvPrimary],
      by simp [mbvPrimary, htrace], by simpa using hresponses, by simpa [mbvPrimary] using hresults,
      by simpa [mbvPrimary, memBitMod] using periphWrite_wf hmem _ _⟩
  · exact ⟨wf_of_idle (by simp), readbackNext_of_ne (by simp), by simp [rasReadback, htrace],
      by simp [hresponses, Response.shapeOk], by simpa [rasReadback] using hresults, by simpa [rasReadback] using hmem⟩

end Invariant

/-! ## How a step stops -/

section Stops

variable {s : State}

/-- The steps that answer no next state. -/
inductive StopsWith (s : State) : Host.Outcome State Fault Refusal → Prop where
  | noRow (hphase : s.ras.phase = .readback) (hop : s.ras.op = .rdr) : StopsWith s (.fault .rasNoRow)
  | noAddress (l : AsmLine) (h : List HostInput) (hhost : s.host = .line l :: h) (hl : l.assemble s.params = none) :
      StopsWith s (.refused .undefinedAddress)
  | noFlag (h : List HostInput) (hhost : s.host = .reqTx false false false :: h) : StopsWith s (.refused .reqTxNoFlag)

theorem runCommand_next (hidle : s.ras.phase = .idle) (w : CmdWord) : ∃ t, runCommand w s = .next t := by
  unfold runCommand
  split
  · exact ⟨_, exec_idle hidle _⟩
  · exact ⟨_, rfl⟩

theorem acceptInstr_next (hidle : s.ras.phase = .idle) (i : Instr) : ∃ t, acceptInstr i s = .next t := by
  cases i with
  | rdr | wrv | mbv => exact ⟨_, rfl⟩
  | enc id ext => exact ⟨_, exec_idle hidle (.enc id ext)⟩
  | dec sidh sidl eid8 eid0 => exact ⟨_, exec_idle hidle (.dec sidh sidl eid8 eid0)⟩
  | res kind index => exact ⟨_, exec_idle hidle (.res kind index)⟩

theorem presentCommand_next (hidle : s.ras.phase = .idle) (w : CmdWord) : ∃ t, presentCommand w s = .next t := by
  unfold presentCommand
  split
  · exact acceptInstr_next hidle _
  · exact ⟨_, rfl⟩

theorem readFrame_next (index : Byte) : ∃ t, readFrame index s = .next t := by
  obtain ⟨-, h⟩ | ⟨_, _, -, -, h⟩ := readFrame_eq index s <;> exact ⟨_, h⟩

theorem rasTick_stops {s u : State} (hras : u.ras = s.ras) : (∃ t, rasTick u = .next t) ∨ StopsWith s (rasTick u) := by
  by_cases hrow : u.ras.phase = .readback → u.ras.op ≠ .rdr
  · exact .inl ⟨_, rasTick_of_row hrow⟩
  · obtain ⟨hphase, hop⟩ := Classical.not_imp.1 hrow
    rw [not_ne_iff] at hop
    right
    simp only [rasTick, hphase, hop]
    exact .noRow (hras ▸ hphase) (hras ▸ hop)

theorem idleStep_stops (hidle : s.ras.phase = .idle) : (∃ t, idleStep s = .next t) ∨ StopsWith s (idleStep s) := by
  have hidle' (h : List HostInput) : (s.withHost h).ras.phase = .idle := hidle
  unfold idleStep
  cases hhost : s.host with
  | nil => exact .inl ⟨_, rfl⟩
  | cons m h =>
    cases m with
    | command w => exact .inl (runCommand_next (hidle' h) w)
    | present w => exact .inl (presentCommand_next (hidle' h) w)
    | line l =>
      simp only [runLine, State.withHost_params]
      cases hl : l.assemble s.params with
      | some i => exact .inl ⟨_, exec_idle (hidle' h) i⟩
      | none => exact .inr (.noAddress l h hhost hl)
    | readFrame index => exact .inl (readFrame_next index)
    | reqTx tx0 tx1 tx2 =>
      by_cases hflag : (tx0 || tx1 || tx2) = true
      · exact .inl ⟨_, reqTx_of_flag hflag⟩
      · simp only [Bool.or_eq_true, not_or, Bool.not_eq_true] at hflag
        obtain ⟨⟨rfl, rfl⟩, rfl⟩ := hflag
        exact .inr (.noFlag h hhost)
    | wait | blockReset | swmode | reset | loadFrame => exact .inl ⟨_, rfl⟩

theorem step_stops (s : State) : (∃ t, step s = .next t) ∨ StopsWith s (step s) := by
  by_cases hidle : s.ras.phase = .idle
  · rw [step_idle hidle]
    exact idleStep_stops hidle
  · rw [step_busy hidle, busyStep]
    split
    · exact .inl ⟨_, rfl⟩
    · exact rasTick_stops rfl
    · exact rasTick_stops rfl

end Stops

/-! ## What the sequences and operations add -/

section Adds

variable {s t : State} {h : List HostInput}

/-- REQTX answers only with a flag set. -/
theorem step_reqTx_next {tx0 tx1 tx2 : Bool} (hidle : s.ras.phase = .idle) (hhost : s.host = .reqTx tx0 tx1 tx2 :: h)
    (hstep : step s = .next t) : t = ((s.withHost h).log (tRts (rtsByte s.params tx0 tx1 tx2))).finish ⟨.ok, none⟩ := by
  by_cases hflag : (tx0 || tx1 || tx2) = true
  · rw [step_reqTx hflag hidle hhost] at hstep
    exact (Host.Outcome.next.inj hstep).symm
  · simp only [Bool.or_eq_true, not_or, Bool.not_eq_true] at hflag
    obtain ⟨⟨rfl, rfl⟩, rfl⟩ := hflag
    rw [reqTxWithoutFlagIsRefused s h hidle hhost] at hstep
    cases hstep

/-- A command presented stepwise is issued nothing for in the accepting step. -/
theorem step_present_trace {w : CmdWord} (hidle : s.ras.phase = .idle) (hhost : s.host = .present w :: h)
    (hstep : step s = .next t) : t.trace = s.trace := by
  cases hdecode : decode w with
  | instr i =>
    rw [step_present hidle hhost hdecode] at hstep
    cases i with
    | rdr | wrv | mbv => cases hstep; rfl
    | enc id ext => rw [(exec_next (i := .enc id ext) hstep).2]; rfl
    | dec sidh sidl eid8 eid0 => rw [(exec_next (i := .dec sidh sidl eid8 eid0) hstep).2]; rfl
    | res kind index => rw [(exec_next (i := .res kind index) hstep).2]; rfl
  | reject why =>
    rw [(undefinedCommandIsRefused s w h why hidle (.inr hhost) hdecode).1] at hstep
    cases hstep
    rfl

theorem wrvAll_trace_length (ws : List (Byte × Byte)) (s : State) :
    (wrvAll ws s).trace.length = s.trace.length + 2 * ws.length := by
  induction ws generalizing s with
  | nil => rfl
  | cons w ws ih =>
    rw [wrvAll, ih, wrvOp_trace, List.length_append, List.length_cons]
    simp only [List.length_cons, List.length_nil]
    omega

/-- The answers of the writes of `wrvAll`, in order. -/
def wrvAllAnswers (ws : List (Byte × Byte)) (s : State) : List Response :=
  (ws.zip (wrvAllRbs ws s)).map fun x => ⟨wrvCode x.1.2 x.2, .empty⟩

theorem wrvAll_responses (ws : List (Byte × Byte)) (s : State) :
    (wrvAll ws s).responses = s.responses ++ wrvAllAnswers ws s := by
  induction ws generalizing s with
  | nil => exact (List.append_nil _).symm
  | cons w ws ih => simp [wrvAll, wrvAllAnswers, wrvAllRbs, ih]

/-- The aggregate of LOADFRAME is `Ok` exactly when every answer is. -/
theorem wrvAllCode_eq_answers (ws : List (Byte × Byte)) (s : State) :
    wrvAllCode ws s = if ∀ r ∈ wrvAllAnswers ws s, r.code = .ok then .ok else .fail := by
  rw [wrvAllCode_eq]
  simp only [wrvAllAnswers, List.forall_mem_map, wrvCode_eq, ite_eq_left_iff, reduceCtorEq, imp_false, not_not]

/-- The answers of LOADFRAME's operations on a valid index: RES's and ENC's, then the writes'. -/
theorem loadFrame_answers {index S : Byte} (hS : s.params.txSidh[index.toNat]? = some S) (f : CanFrame) :
    (wrvAll (loadWrites ⟨S, none⟩ f) (encOp f.id f.isExtended (resOp .tx index s))).responses = s.responses ++
      (resResponse (some ⟨S, none⟩) :: ⟨.ok, .image (encodeId f.id f.isExtended)⟩ ::
        wrvAllAnswers (loadWrites ⟨S, none⟩ f) (encOp f.id f.isExtended (resOp .tx index s))) := by
  have hstart : (encOp f.id f.isExtended (resOp .tx index s)).responses =
      s.responses ++ [resResponse (some ⟨S, none⟩), ⟨.ok, .image (encodeId f.id f.isExtended)⟩] := by
    rw [encOp, State.respond_responses, resOp, State.respond_responses, resolve_tx_of_entry hS, List.append_assoc]
    rfl
  rw [wrvAll_responses, hstart, List.append_assoc]
  rfl

/-- Every index is a row of the table or beyond it. -/
theorem txIndex_cases (index : Byte) (p : Params) :
    (index.toNat ≤ 2 ∧ ∃ S, p.txSidh[index.toNat]? = some S) ∨ (3 ≤ index.toNat ∧ resolve p .tx index = none) := by
  by_cases hindex : index.toNat < 3
  · exact .inl ⟨by omega, _, Vector.getElem?_eq_getElem hindex⟩
  · exact .inr ⟨by omega, resolve_tx_invalid p (by omega)⟩

theorem rxIndex_cases (index : Byte) (p : Params) :
    (index.toNat ≤ 1 ∧ ∃ S, p.rxSidh[index.toNat]? = some S) ∨ (2 ≤ index.toNat ∧ resolve p .rx index = none) := by
  by_cases hindex : index.toNat < 2
  · exact .inl ⟨by omega, _, Vector.getElem?_eq_getElem hindex⟩
  · exact .inr ⟨by omega, resolve_rx_invalid p (by omega)⟩

/-- READFRAME's transactions: eight beside the data registers. -/
theorem readBlock_trace_length (index : Byte) (blk : RegisterBlock) (C : Byte) (s : State) :
    (readBlock index blk C s).trace.length = s.trace.length + 8 + min (frameRead blk C s).dataLength 8 := by
  obtain ⟨ctrl, b0, b1, b2, b3, dlc, rb, data, hlength, htrace, hframe⟩ := readBlock_spec index blk C s
  rw [htrace, hframe, ← hlength]
  simp only [List.length_append, List.length_map, List.length_zip, List.length_cons, List.length_nil, dataIndices]
  omega

/-- A step has one outcome. -/
theorem step_next_unique {u : State} (hstep : step s = .next t) (hu : step s = .next u) : t = u :=
  Host.Outcome.next.inj (hstep.symm.trans hu)

end Adds

/-! ## The obligations -/

/-- Settles O49: by the kinds of step; only acceptance and the busy block's row reach latches that are not idle. -/
theorem everyStepKeepsTheInvariant : Obligations.EveryStepKeepsTheInvariant := by
  intro s t hinv hstep
  cases step_kind hstep with
  | ran h hidle run => exact inv_run run hidle hinv
  | returned h u r hidle run hshape ht => exact ht ▸ inv_finish (inv_run run hidle hinv) hshape
  | pulsed h _ ht => exact ht ▸ inv_finish (s := { s.withHost h with pulses := s.pulses + 1 }) hinv rfl
  | refused w h why _ _ _ ht => exact ht ▸ inv_respond (s := s.withHost h) hinv rfl
  | accepted w h addr mask value r _ _ _ hphase hwf ht =>
    exact ht ▸ inv_setRas (s := s.withHost h) hinv hwf (by simp [hphase])
  | reset h ht => exact ht ▸ inv_setRas (s := s.withHost h) hinv rfl (by simp)
  | row h hbusy hrow ht => exact ht ▸ inv_rasStep (s := s.withHost h) hinv hbusy hrow

/-- Settles O50: the one state without a row has latches that the invariant excludes. -/
theorem invariantStatesNeverFault : Obligations.InvariantStatesNeverFault := by
  intro s r hinv hfault
  obtain ⟨t, ht⟩ | hstops := step_stops s
  · rw [ht] at hfault
    cases hfault
  · rw [hfault] at hstops
    obtain ⟨hwf, -⟩ := inv_iff.1 hinv
    cases hstops with
    | noRow hphase hop => simp [Ras.wf, hphase, hop] at hwf

/-- Settles O51: the two refusals among the ways a step stops. -/
theorem onlyTwoRefusalsInARun : Obligations.OnlyTwoRefusalsInARun := by
  intro s r _ hrefused
  obtain ⟨t, ht⟩ | hstops := step_stops s
  · rw [ht] at hrefused
    cases hrefused
  · rw [hrefused] at hstops
    cases hstops with
    | noAddress l h hhost hl => exact .inl ⟨rfl, l, h, hhost, hl⟩
    | noFlag h hhost => exact .inr ⟨rfl, h, hhost⟩

/-- Settles O53: every step but the answer to an undefined command adds answers with other codes. -/
theorem refusedOnlyForUndefinedCommands : Obligations.RefusedOnlyForUndefinedCommands := by
  rintro s t rs hstep hresponses ⟨r, hr, hrefused⟩
  obtain hundefined | ⟨qs, hanswers, hcodes⟩ := step_answers hstep
  · exact hundefined
  · obtain rfl := List.append_cancel_left (hresponses.symm.trans hanswers)
    exact absurd hrefused (hcodes r hr)

/-- Settles O54: the history part of what every step keeps. -/
theorem historyOnlyGrows : Obligations.HistoryOnlyGrows := fun _ _ hstep =>
  have grows := step_grows hstep
  ⟨grows.trace, grows.responses, grows.results⟩

/-- Settles O55: its parameter part. -/
theorem parametersAreNeverWritten : Obligations.ParametersAreNeverWritten := fun _ _ hstep => (step_grows hstep).params

/-- Settles O56: of the kinds of step of the idle block only acceptance leaves it busy. -/
theorem onlyAcceptanceMakesTheBlockBusy : Obligations.OnlyAcceptanceMakesTheBlockBusy := by
  intro s t hidle hstep hbusy
  cases step_kind hstep with
  | ran h _ run => exact absurd (run.idle hidle) hbusy
  | returned h u r _ run _ ht => exact absurd (ht ▸ run.idle hidle) hbusy
  | pulsed h _ ht => exact absurd (ht ▸ hidle) hbusy
  | refused w h why _ _ _ ht => exact absurd (ht ▸ hidle) hbusy
  | accepted w h addr mask value r _ hhost hdecode hphase _ ht =>
    exact ⟨w, h, addr, mask, value, hhost, ht ▸ hphase, hdecode⟩
  | reset h ht => exact absurd (ht ▸ rfl) hbusy
  | row h hrun _ _ => exact absurd hidle hrun

/-- Settles O46: each sequence's own writes; under the oracle by the kinds of step. -/
theorem clientSequencesMemoryFrame : Obligations.ClientSequencesMemoryFrame := by
  intro s t m h hidle hhost hstep
  refine ⟨fun mode hm => ?swmode, fun index f S hm hS x hx => ?loadFrame, fun index hm => ?readFrame, fun hm => ?reset,
    fun tx0 tx1 tx2 hm => ?reqTx, fun horacle => idle_step_oracle_mem hidle horacle hstep⟩ <;> subst hm
  case swmode =>
    rw [step_next_unique hstep (step_swmode hidle hhost)]
    exact swmode_sameMemoryBut mode (s.withHost h)
  case loadFrame =>
    rw [step_next_unique hstep (step_loadFrame hidle hhost)]
    exact loadFrame_mem_other (s := s.withHost h) hS f hx
  case readFrame =>
    rw [step_readFrame hidle hhost] at hstep
    exact readFrame_sameMemoryBut (s := s.withHost h) hstep
  case reset =>
    obtain ⟨u, hu, -, -, -, hmem, -⟩ := resetSequence s h hidle hhost
    rw [step_next_unique hstep hu, hmem]
  case reqTx =>
    rw [step_reqTx_next hidle hhost hstep]
    rfl

/-- Settles O57: each sequence and command by what it is known to add. -/
theorem transactionCounts : Obligations.TransactionCounts := by
  intro s t m h hidle hhost hstep
  refine ⟨fun mode hm => ?swmode, fun hm => ?reset, fun index f hm => ?loadFrame, fun index hm hindex => ?readFrame,
    fun index hm hindex => ?readInvalid, fun tx0 tx1 tx2 hm => ?reqTx, fun w hm => ?present,
    fun w i hm hdecode => ?command⟩ <;> subst hm
  case swmode =>
    rw [step_next_unique hstep (step_swmode hidle hhost), swmode_trace, List.length_append]
    rfl
  case reset =>
    obtain ⟨u, hu, -, -, -, -, -, hinstruction, hpin⟩ := resetSequence s h hidle hhost
    rw [step_next_unique hstep hu]
    cases hvariant : s.params.resetVariant with
    | instruction => rw [(hinstruction hvariant).1, List.length_append, if_pos rfl]; rfl
    | pin => rw [(hpin hvariant).1, if_neg (by decide)]; rfl
  case loadFrame =>
    rw [step_next_unique hstep (step_loadFrame hidle hhost)]
    obtain ⟨hindex, S, hS⟩ | ⟨hindex, hnone⟩ := txIndex_cases index s.params
    · rw [loadFrame_valid (s := s.withHost h) hS, State.finish_trace, wrvAll_trace_length, if_pos (by omega), loadWrites_eq]
      rfl
    · rw [loadFrame_invalid (s := s.withHost h) hnone, if_neg (by omega)]
      rfl
  case readFrame =>
    obtain ⟨-, S, hS⟩ | ⟨hge, -⟩ := rxIndex_cases index s.params
    · rw [step_readFrame hidle hhost, readFrame_valid (s := s.withHost h) hS] at hstep
      cases hstep
      refine ⟨_, ?_, readBlock_trace_length _ _ _ _⟩
      rw [readBlock_eq, State.finish_results, (flagCleared_run _ _ _ _).results]
      rfl
    · omega
  case readInvalid =>
    rw [step_readFrame hidle hhost, readFrame_invalid (s := s.withHost h) (resolve_rx_invalid _ hindex)] at hstep
    cases hstep
    rfl
  case reqTx =>
    rw [step_reqTx_next hidle hhost hstep]
    exact List.length_append
  case present => rw [step_present_trace hidle hhost hstep]
  case command =>
    rw [stepRunsTheDecodedCommand s w h i hidle hhost hdecode] at hstep
    obtain ⟨-, rfl⟩ := exec_next hstep
    cases i with
    | rdr addr => rw [instrOp, rdrOp_trace, List.length_append]; rfl
    | wrv addr value => rw [instrOp, wrvOp_trace, List.length_append]; rfl
    | mbv addr mask value => rw [instrOp, mbvOp_trace, List.length_append]; rfl
    | enc | dec | res => rfl

/-- Settles O52: row by row, each code from the operation's or the sequence's own lemma. -/
theorem resultCodeTable : Obligations.ResultCodeTable := by
  intro s t h hidle
  refine ⟨fun addr hexec => ?rdr, fun addr value hexec => ?wrv, fun addr mask value hexec => ?mbv, fun id ext hexec => ?enc,
    fun sidh sidl eid8 eid0 hexec => ?dec, fun index hexec => ?resTx, fun index hexec => ?resRx,
    fun mode hhost hstep => ?swmode, fun hhost hstep => ?reset, fun index f hhost hstep => ?loadFrame,
    fun index hhost hstep => ?readFrame, fun tx0 tx1 tx2 hhost hstep => ?reqTx, fun w why hhost hdecode hstep => ?undefined⟩
  case rdr =>
    obtain ⟨-, rfl⟩ := exec_next hexec
    exact ⟨_, rdrOp_responses s addr⟩
  case wrv =>
    obtain ⟨-, rfl⟩ := exec_next hexec
    rw [instrOp, wrvOp_responses, wrvOp_ras, wrvCode_eq]
  case mbv =>
    obtain ⟨-, rfl⟩ := exec_next hexec
    rw [instrOp, mbvOp_responses, mbvOp_ras, mbvCode_eq]
  case enc =>
    obtain ⟨-, rfl⟩ := exec_next hexec
    exact ⟨_, rfl⟩
  case dec =>
    obtain ⟨-, rfl⟩ := exec_next hexec
    exact ⟨_, rfl⟩
  case resTx =>
    obtain ⟨-, rfl⟩ := exec_next hexec
    rw [instrOp, resOp, State.respond_responses]
    obtain ⟨hindex, S, hS⟩ | ⟨hindex, hnone⟩ := txIndex_cases index s.params
    · rw [resolve_tx_of_entry hS, if_pos hindex]
      exact ⟨_, rfl⟩
    · rw [hnone, if_neg (by omega)]
      exact ⟨_, rfl⟩
  case resRx =>
    obtain ⟨-, rfl⟩ := exec_next hexec
    rw [instrOp, resOp, State.respond_responses]
    obtain ⟨hindex, S, hS⟩ | ⟨hindex, hnone⟩ := rxIndex_cases index s.params
    · rw [resolve_rx_of_entry hS, if_pos hindex]
      exact ⟨_, rfl⟩
    · rw [hnone, if_neg (by omega)]
      exact ⟨_, rfl⟩
  case swmode =>
    rw [step_next_unique hstep (step_swmode hidle hhost)]
    refine ⟨swmodeResult mode (s.withHost h), statusByte mode (s.withHost h), swmode_results _ _, ?_, swmodeCode_eq _ _ _ _, ?_⟩
    · rw [swmode_trace, List.getLast?_append]
      rfl
    · intro hok
      by_contra hne
      rw [swmodeResult_fail hne] at hok
      cases hok
  case reset =>
    obtain ⟨u, hu, hresults, -⟩ := resetSequence s h hidle hhost
    rw [step_next_unique hstep hu, hresults]
  case loadFrame =>
    rw [step_next_unique hstep (step_loadFrame hidle hhost)]
    obtain ⟨hindex, S, hS⟩ | ⟨hindex, hnone⟩ := txIndex_cases index s.params
    · rw [loadFrame_valid (s := s.withHost h) hS]
      refine ⟨_, _, congrArg (· ++ _) (BlockRun.wrvAll _ _).results, loadFrame_answers (s := s.withHost h) hS f, fun _ => ?_,
        fun hgt => absurd hindex (by omega)⟩
      rw [wrvAllCode_eq_answers]
      simp only [List.forall_mem_cons, resResponse, true_and]
    · rw [loadFrame_invalid (s := s.withHost h) hnone]
      exact ⟨.invalid, _, rfl, rfl, fun hle => absurd hindex (by omega), fun _ => rfl⟩
  case readFrame =>
    rw [step_readFrame hidle hhost] at hstep
    obtain ⟨hindex, S, hS⟩ | ⟨hindex, hnone⟩ := rxIndex_cases index s.params
    · rw [readFrame_valid (s := s.withHost h) hS] at hstep
      cases hstep
      rw [readBlock_eq, State.finish_results, (flagCleared_run _ _ _ _).results, if_pos hindex]
      exact ⟨_, rfl⟩
    · rw [readFrame_invalid (s := s.withHost h) hnone] at hstep
      cases hstep
      rw [if_neg (by omega)]
      exact ⟨_, rfl⟩
  case reqTx =>
    rw [step_reqTx_next hidle hhost hstep]
    rfl
  case undefined => rw [step_next_unique hstep (undefinedCommandIsRefused s w h why hidle hhost hdecode).1]

/-- Settles O47: the reset state is evaluated. -/
theorem resetIsIdleAndReady : Obligations.ResetIsIdleAndReady := by
  unfold Obligations.ResetIsIdleAndReady
  decide

/-- Settles O48: the reset state is evaluated. -/
theorem resetMeetsTheInvariant : Obligations.ResetMeetsTheInvariant := by
  unfold Obligations.ResetMeetsTheInvariant
  decide

end Sys2Proof.Proofs.WholeMachine
end
